-- ==== Sys2Proof/Word.lean ====
section
/-! DEFINITION. Word.lean: the byte, the one word type every parameter value leaves fixed (R9, R22). -/

namespace Sys2Proof

/-- A byte `b[7:0]`; bit 0 is the least significant (R22). A source character is one byte too (R10). -/
abbrev Byte := BitVec 8

end Sys2Proof
end

