-- ==== Sys2Proof/Config.lean ====
section
/-! DEFINITION. Config.lean: the parameters of a run (spec/00_scope.md R11 to R21), as plain data. -/

namespace Sys2Proof

/-- `ADD_OVERFLOW` (R13). -/
inductive AddOverflow where
  /-- Keep the sum modulo 2^REG_W. -/
  | wrap
  /-- Raise AddOverflow. -/
  | fault
deriving DecidableEq, Repr

/-- `IMM_EXT` (R14). -/
inductive ImmExt where
  /-- An immediate is 0..255. -/
  | zero
  /-- An immediate is -128..127. -/
  | sign
deriving DecidableEq, Repr

/-- `LABELSET_REG_MODE` (R18, R223). -/
inductive LabelsetRegMode where
  /-- `label[reg[op1]] <- pc + 2`. -/
  | indexFromReg
  /-- `label[op1] <- reg[op1]`. -/
  | valueFromReg
  /-- Opcode 40 raises UnsupportedOpcode. -/
  | unsupported
deriving DecidableEq, Repr

/-- `JUMPTRUE_MODE` (R19): "has the single value UNSUPPORTED". DEDUCED (safe; notes/assumptions/14.md). -/
inductive JumptrueMode where
  /-- Opcode 44 raises UnsupportedOpcode. -/
  | unsupported
deriving DecidableEq, Repr

/-- `UNSET_LABEL_POLICY` (R20, R221). -/
inductive UnsetLabelPolicy where
  /-- A jump through an entry never written goes to its reset value 0. -/
  | zero
  /-- Such a jump raises UnsetLabel. -/
  | fault
deriving DecidableEq, Repr

/-- The parameters of R11. `PC_W` (R16) is derived from `progMax`, so it is a function, not a field. -/
structure Config where
  /-- `REG_W`, the width of a register cell in bits (R12). -/
  regW : Nat
  /-- `ADD_OVERFLOW` (R13). -/
  addOverflow : AddOverflow
  /-- `IMM_EXT` (R14). -/
  immExt : ImmExt
  /-- `PROG_MAX`, the capacity of the program store in bytes (R15). -/
  progMax : Nat
  /-- `DELIMITERS`, the bytes that separate tokens (R17), a set held as a list with no repeats.
  DEDUCED (safe; notes/assumptions/11.md). -/
  delimiters : List Byte
  /-- `LABELSET_REG_MODE` (R18). -/
  labelsetRegMode : LabelsetRegMode
  /-- `JUMPTRUE_MODE` (R19). -/
  jumptrueMode : JumptrueMode
  /-- `UNSET_LABEL_POLICY` (R20). -/
  unsetLabelPolicy : UnsetLabelPolicy
  /-- `NEWLINE` (R21). -/
  newline : Byte
deriving DecidableEq, Repr

/-- The defaults of R11. `PROG_MAX` is OPEN there: a caller gives it.
UNVERIFIED (the spec states them and says of itself, G1 and G4, that they come from general knowledge; unsafe):
`REG_W` = 32 and `NEWLINE` = 0x0A (notes/assumptions/13.md). -/
def Config.defaults (progMax : Nat) : Config :=
  { regW := 32
    addOverflow := .wrap
    immExt := .zero
    progMax := progMax
    delimiters := [0x20, 0x0A]
    labelsetRegMode := .indexFromReg
    jumptrueMode := .unsupported
    unsetLabelPolicy := .zero
    newline := 0x0A }

/-- The `PROG_MAX` of State.reset.
DESIGN CHOICE (unsafe; notes/assumptions/2.md): R15 leaves it OPEN, and a state must hold some value.
Every statement about the model is about every `progMax`. -/
def Config.resetProgMax : Nat := 65535

end Sys2Proof
end

