-- ==== Sys2Proof/Syntax.lean ====
section
/-! DEFINITION. Syntax.lean: the twelve instructions of spec/30_encoding.md R124. -/

namespace Sys2Proof

/-- One constructor per row of the opcode map R124, its arguments the operand bytes in byte order (R27, R122). -/
inductive Instr where
  /-- HALT, code 0 (R150). -/
  | halt
  /-- STORE_IMM, code 1 (R170). -/
  | storeImm (imm rd : Byte)
  /-- STORE_REG, code 2 (R172). -/
  | storeReg (rs rd : Byte)
  /-- ADD_IMM, code 10 (R174). -/
  | addImm (imm rd : Byte)
  /-- ADD_REG, code 11 (R176). -/
  | addReg (rs rd : Byte)
  /-- PRINT_REG, code 20 (R200). -/
  | printReg (rs : Byte)
  /-- PRINT_CHAR, code 21 (R204). -/
  | printChar (chr : Byte)
  /-- LABELSET_REG, code 40 (R223): op1 is a register, or a label and a register, by mode. -/
  | labelsetReg (op1 : Byte)
  /-- LABELSET_IMM, code 41 (R225). -/
  | labelsetImm (lbl : Byte)
  /-- JUMP_REG, code 42 (R226). -/
  | jumpReg (rs : Byte)
  /-- JUMP_IMM, code 43 (R227). -/
  | jumpImm (lbl : Byte)
  /-- JUMPTRUE, code 44 (R228): its three operand bytes have no roles. -/
  | jumptrue (op1 op2 op3 : Byte)
deriving DecidableEq, Repr

/-- The operand bytes of an instruction, op1 first (R120). -/
def Instr.operands : Instr → List Byte
  | .halt => []
  | .storeImm imm rd => [imm, rd]
  | .storeReg rs rd => [rs, rd]
  | .addImm imm rd => [imm, rd]
  | .addReg rs rd => [rs, rd]
  | .printReg rs => [rs]
  | .printChar chr => [chr]
  | .labelsetReg op1 => [op1]
  | .labelsetImm lbl => [lbl]
  | .jumpReg rs => [rs]
  | .jumpImm lbl => [lbl]
  | .jumptrue op1 op2 op3 => [op1, op2, op3]

/-- The arity column of R124, read by instruction. -/
def Instr.arity : Instr → Nat
  | .halt => 0
  | .storeImm _ _ => 2
  | .storeReg _ _ => 2
  | .addImm _ _ => 2
  | .addReg _ _ => 2
  | .printReg _ => 1
  | .printChar _ => 1
  | .labelsetReg _ => 1
  | .labelsetImm _ => 1
  | .jumpReg _ => 1
  | .jumpImm _ => 1
  | .jumptrue _ _ _ => 3

end Sys2Proof
end

