-- ==== Sys2Proof/WellFormed.lean ====
section
/-! DEFINITION. WellFormed.lean: the checks on an instruction, on the parameters and on a token. -/

namespace Sys2Proof

/-- An instruction is well-formed when it carries as many operand bytes as R124's arity says (R120).
Every value of every operand byte is admitted (R34, R122), so nothing else is asked. -/
def Instr.wellFormed (i : Instr) : Bool :=
  i.operands.length == i.arity

/-- The bounds R11, R12 and R15 put on the parameters; `DELIMITERS` is a set (R17). -/
def Config.wellFormed (c : Config) : Bool :=
  decide (9 ≤ c.regW) && decide (1 ≤ c.progMax) && decide c.delimiters.Nodup

/-- A token of the source text: exactly 16 bytes, none of them a delimiter (R100). -/
def tokenWellFormed (c : Config) (t : List Byte) : Bool :=
  t.length == 16 && t.all fun b => !c.delimiters.contains b

end Sys2Proof
end

