-- ==== Sys2Proof/Decode.lean ====
section
/-! DEFINITION. Decode.lean: from bytes to instructions and back (spec/30_encoding.md R120 to R127), and from
token text to bytes and back (R100 to R103, R111). -/

namespace Sys2Proof

/-! ## The opcode map -/

/-- One row of the opcode map R124: the code of the opcode byte and the number of operand bytes after it. -/
structure OpcodeRow where
  code : Nat
  arity : Nat
deriving DecidableEq, Repr

/-- The opcode map R124, in the table's order. -/
def opcodeMap : List OpcodeRow :=
  [⟨0, 0⟩, ⟨1, 2⟩, ⟨2, 2⟩, ⟨10, 2⟩, ⟨11, 2⟩, ⟨20, 1⟩, ⟨21, 1⟩, ⟨40, 1⟩, ⟨41, 1⟩, ⟨42, 1⟩, ⟨43, 1⟩, ⟨44, 3⟩]

/-- The arity of an opcode byte; none for a byte that is not an opcode (R123, R125). -/
def arity? (op : Byte) : Option Nat :=
  (opcodeMap.find? fun row => row.code == op.toNat).map OpcodeRow.arity

/-- The instruction of an opcode byte and exactly its operand bytes (R124). -/
def assemble (op : Byte) (operands : List Byte) : Option Instr :=
  match op.toNat, operands with
  | 0, [] => some .halt
  | 1, [imm, rd] => some (.storeImm imm rd)
  | 2, [rs, rd] => some (.storeReg rs rd)
  | 10, [imm, rd] => some (.addImm imm rd)
  | 11, [rs, rd] => some (.addReg rs rd)
  | 20, [rs] => some (.printReg rs)
  | 21, [chr] => some (.printChar chr)
  | 40, [op1] => some (.labelsetReg op1)
  | 41, [lbl] => some (.labelsetImm lbl)
  | 42, [rs] => some (.jumpReg rs)
  | 43, [lbl] => some (.jumpImm lbl)
  | 44, [op1, op2, op3] => some (.jumptrue op1 op2 op3)
  | _, _ => none

/-! ## Decoding and encoding an instruction -/

/-- Why bytes are no instruction. -/
inductive DecodeError where
  /-- There is no byte to read. -/
  | noBytes
  /-- The first byte is not an opcode (R125). -/
  | unknownOpcode (op : Byte)
  /-- Fewer operand bytes follow than the opcode's arity (R144). -/
  | truncated (op : Byte)
deriving DecidableEq, Repr

/-- The instruction at the head of a byte sequence and the bytes after it (R120, R123). -/
def decode : List Byte → Except DecodeError (Instr × List Byte)
  | [] => .error .noBytes
  | op :: rest =>
    match arity? op with
    | none => .error (.unknownOpcode op)
    | some a =>
      match assemble op (rest.take a) with
      | none => .error (.truncated op)
      | some i => .ok (i, rest.drop a)

/-- The opcode byte of an instruction: the code column of R124. -/
def Instr.opcode : Instr → Byte
  | .halt => 0
  | .storeImm _ _ => 1
  | .storeReg _ _ => 2
  | .addImm _ _ => 10
  | .addReg _ _ => 11
  | .printReg _ => 20
  | .printChar _ => 21
  | .labelsetReg _ => 40
  | .labelsetImm _ => 41
  | .jumpReg _ => 42
  | .jumpImm _ => 43
  | .jumptrue _ _ _ => 44

/-- The bytes of an instruction: opcode, then operands in order (R120, R121). -/
def encode (i : Instr) : List Byte :=
  i.opcode :: i.operands

/-- The bytes of a sequence of instructions, in program order (R128). -/
def encodeAll (is : List Instr) : List Byte :=
  is.flatMap encode

/-! ## The opcode table's own numbering of bits -/

/-- The four bytes of an instruction whose bits are `w`, byte k being bits 8k+7..8k, every bit from `nbits` on 0.
Four bytes is the longest instruction (R120). -/
def tableWordBytes (nbits w : Nat) : List Byte :=
  let v := w % 2 ^ nbits
  [BitVec.ofNat 8 v, BitVec.ofNat 8 (v / 2 ^ 8), BitVec.ofNat 8 (v / 2 ^ 16), BitVec.ofNat 8 (v / 2 ^ 24)]

/-- The instruction the decoder reads from an opcode-table word. -/
def decodeTableWord (nbits w : Nat) : Option Instr :=
  match decode (tableWordBytes nbits w) with
  | .ok (i, _) => some i
  | .error _ => none

/-! ## Tokens -/

/-- The byte a 16-byte token decodes to: bit i is 1 exactly when the bytes at offsets 2i and 2i+1 are equal (R102).
It is a function of the pairs from the first on: the first pair gives the least significant bit (R73). -/
def decodeToken : List Byte → Byte
  | a :: b :: rest => decodeToken rest <<< 1 ||| (if a = b then 1 else 0)
  | _ => 0

/-- The canonical pair of one bit: "aa" for 1 and "ab" for 0 (R111). -/
def encodePair (bit : Bool) : List Byte :=
  if bit then [0x61, 0x61] else [0x61, 0x62]

/-- The canonical token of a byte, pair 0 first (R111). -/
def encodeToken (b : Byte) : List Byte :=
  (List.range 8).flatMap fun i => encodePair (b.getLsbD i)

/-- The canonical source text of a program: the tokens of its bytes joined by one space (R111). -/
def encodeText : List Byte → List Byte
  | [] => []
  | [b] => encodeToken b
  | b :: rest => encodeToken b ++ 0x20 :: encodeText rest

/-- The tokens of a source text: its maximal runs of bytes that are not delimiters, in order (R100, R101).
`current` is the run being read, in order. -/
def splitTokensFrom (delimiters : List Byte) (current : List Byte) : List Byte → List (List Byte)
  | [] => if current.isEmpty then [] else [current]
  | b :: rest =>
    if delimiters.contains b then
      if current.isEmpty then splitTokensFrom delimiters [] rest
      else current :: splitTokensFrom delimiters [] rest
    else splitTokensFrom delimiters (current ++ [b]) rest

/-- The tokens of a source text (R100, R101). -/
def splitTokens (delimiters text : List Byte) : List (List Byte) :=
  splitTokensFrom delimiters [] text

end Sys2Proof
end

