-- ==== Sys2Proof/Machine/State.lean ====
section
/-! DEFINITION. Machine/State.lean: the state of the core (spec/10_state.md R30), its reset value (R62) and the
reasons the model stops. -/

namespace Sys2Proof.Machine

/-- `PHASE` (R51). -/
inductive Phase where
  /-- The tokenizer consumes source bytes. -/
  | tokenize
  /-- The executor runs. -/
  | execute
  /-- HALT was executed; terminal. -/
  | halted
  /-- A fault was raised; terminal. -/
  | faulted
deriving DecidableEq, Repr

/-- `FAULT_CAUSE` (R54, R301). The codes 9 to 15 are reserved and never written, so no constructor stands for them.
DEDUCED (safe; notes/assumptions/16.md). -/
inductive FaultCause where
  | none
  | formatError
  | outOfMemory
  | unknownOpcode
  | programBoundsError
  | unsupportedOpcode
  | indexBoundsError
  | unsetLabel
  | addOverflow
deriving DecidableEq, Repr

/-- What the host does, as far as it acts on the core (R330). OutByte and ReadStatus act on nothing: `State.out` is the
record of the first, and `State.readStatus` the answer of the second (notes/assumptions/10.md). -/
inductive HostTransfer where
  /-- `Reset`, enabled in any phase (R340). -/
  | reset
  /-- `PutByte(b)`, enabled in phase TOKENIZE only (R331). -/
  | putByte (b : Byte)
  /-- `EndInput`, enabled in phase TOKENIZE only (R331). -/
  | endInput
  /-- The host lets one step of the core pass before its next transfer.
  DESIGN CHOICE (safe; notes/assumptions/4.md). -/
  | idle
deriving DecidableEq, Repr

/-- The program store's bytes, as (index, byte) pairs in rising order. -/
abbrev Memory := List Host.Cell

/-- The state of the core: the closed list of R30, and two fields that are the model's own (`cfg`, `pending`). -/
structure State where
  /-- The parameters of R11, which no step writes. DESIGN CHOICE (safe; notes/assumptions/1.md): held here because
  `step` takes nothing but a state. -/
  cfg : Config
  /-- `reg[0..255]` (R31). Register values are mathematical integers (R23). DEDUCED (safe; notes/assumptions/8.md): State.Inv
  bounds them. -/
  regs : Vector Int 256
  /-- `label[0..255]` (R36). DEDUCED (safe; notes/assumptions/7.md): natural numbers, which R16 allows, as for pc, N and
  FAULT_POS. -/
  labels : Vector Nat 256
  /-- `label_set[0..255]` (R39). -/
  labelSet : Vector Bool 256
  /-- The bytes `P[k]` of the program store (R40). -/
  prog : Memory
  /-- `N`, the length of the program store (R40). -/
  progLen : Nat
  /-- `pc` (R42). -/
  pc : Nat
  /-- `tk_len` (R45). -/
  tkLen : Nat
  /-- `tk_first` (R45). -/
  tkFirst : Byte
  /-- `tk_acc` (R45). -/
  tkAcc : Byte
  /-- `PHASE` (R51). -/
  phase : Phase
  /-- `FAULT_CAUSE` (R54). -/
  faultCause : FaultCause
  /-- `FAULT_VALUE` (R55). -/
  faultValue : Int
  /-- `FAULT_POS` (R56). -/
  faultPos : Nat
  /-- `OUT` (R50), the first byte emitted first. -/
  out : List Byte
  /-- The host transfers the core has not met yet, oldest first.
  DESIGN CHOICE (unsafe; notes/assumptions/4.md). -/
  pending : List HostTransfer
deriving DecidableEq, Repr

/-- Why the model stops. Every fault the SPEC gives the core is a next state in phase FAULTED, not one of these. -/
inductive Fault where
  /-- Raised by the executor when it fetches an index below `N` at which the program store lists no byte.
  Safe: no state that keeps the invariant State.Inv meets it, and the model stops where the spec says nothing
  (notes/assumptions/6.md). -/
  | unwrittenProgramByte (index : Nat)
deriving DecidableEq, Repr

/-- Why the model has no meaning for an instruction. -/
inductive Refusal where
  /-- Raised by an arm of `exec` for an instruction that has no meaning yet; no arm does. Safe. -/
  | notModelled (mnemonic : String)
deriving DecidableEq, Repr

/-- The reset table R62, for any parameters, with the host transfers still to come. -/
def State.resetWith (cfg : Config) (pending : List HostTransfer) : State :=
  { cfg := cfg
    regs := Vector.replicate 256 0
    labels := Vector.replicate 256 0
    labelSet := Vector.replicate 256 false
    prog := []
    progLen := 0
    pc := 0
    tkLen := 0
    tkFirst := 0
    tkAcc := 0
    phase := .tokenize
    faultCause := .none
    faultValue := 0
    faultPos := 0
    out := []
    pending := pending }

/-- The machine right after reset (R62, R340), with the default parameters (R11) and no host transfer to come.
DESIGN CHOICE (unsafe; notes/assumptions/2.md and 3.md): the value of `PROG_MAX`, and that the parameters are the
defaults. -/
def State.reset : State :=
  State.resetWith (Config.defaults Config.resetProgMax) []

end Sys2Proof.Machine
end

