-- ==== Sys2Proof/Machine/Ops.lean ====
section
/-! DEFINITION. Machine/Ops.lean: the named operations over the state: the program store, the registers, the labels,
the program counter, the output stream, taking a fault (R310), and the host's read-only views (R52, R53, R57, R333). -/

namespace Sys2Proof.Machine

/-! ## The program store (R40, R70) -/

/-- What an index that the program store does not list reads as: no value (R62 "unspecified, never read").
DESIGN CHOICE (safe; notes/assumptions/6.md). -/
def Memory.unlisted : Option Byte := none

/-- The byte `P[a]`. -/
def Memory.read : Memory → Nat → Option Byte
  | [], _ => Memory.unlisted
  | c :: rest, a => if c.1 = a then some c.2 else Memory.read rest a

/-- `P[a] <- b`, kept in canonical form. -/
def Memory.write : Memory → Nat → Byte → Memory
  | [], a, b => [(a, b)]
  | c :: rest, a, b =>
    if a < c.1 then (a, b) :: c :: rest
    else if a = c.1 then (a, b) :: rest
    else c :: Memory.write rest a b

/-- The canonical form: indexes strictly rising. An entry always holds a byte and an unlisted index holds none, so no
entry equals what an unlisted index reads as. -/
def Memory.wf : Memory → Bool
  | [] => true
  | [_] => true
  | c :: d :: rest => decide (c.1 < d.1) && Memory.wf (d :: rest)

/-- The bytes `P[a]`, ..., `P[a+n-1]`; none if one of them is not listed. -/
def Memory.readBytes (m : Memory) (a : Nat) : Nat → Option (List Byte)
  | 0 => some []
  | n + 1 =>
    match m.read a with
    | none => none
    | some b => (Memory.readBytes m (a + 1) n).map (b :: ·)

/-- `P[a] <- b0`, `P[a+1] <- b1`, ... -/
def Memory.writeBytes (m : Memory) (a : Nat) : List Byte → Memory
  | [] => m
  | b :: rest => Memory.writeBytes (m.write a b) (a + 1) rest

/-- `P[N] <- b`, `N <- N + 1`: the one way the program store grows (R110). -/
def State.appendByte (s : State) (b : Byte) : State :=
  { s with prog := s.prog.write s.progLen b, progLen := s.progLen + 1 }

/-! ## The register file (R31) and the label table (R36, R39) -/

/-- `reg[r]`. -/
def State.reg (s : State) (r : Byte) : Int :=
  s.regs[r.toNat]'r.isLt

/-- `reg[r] <- v`. -/
def State.setReg (s : State) (r : Byte) (v : Int) : State :=
  { s with regs := s.regs.set r.toNat v r.isLt }

/-- `label[j]`. -/
def State.label (s : State) (j : Byte) : Nat :=
  s.labels[j.toNat]'j.isLt

/-- `label_set[j]`. -/
def State.isLabelSet (s : State) (j : Byte) : Bool :=
  s.labelSet[j.toNat]'j.isLt

/-- `SetLabel(j, v)` (R220). -/
def State.setLabel (s : State) (j : Byte) (v : Nat) : State :=
  { s with labels := s.labels.set j.toNat v j.isLt, labelSet := s.labelSet.set j.toNat true j.isLt }

/-! ## The program counter, the output stream, the phase -/

/-- `pc <- pc + n`: n is 1 + arity (R145). -/
def State.advance (s : State) (n : Nat) : State :=
  { s with pc := s.pc + n }

/-- `pc <- target` (R229). -/
def State.jump (s : State) (target : Nat) : State :=
  { s with pc := target }

/-- `Emit(bytes)` (R25, R50). -/
def State.emit (s : State) (bytes : List Byte) : State :=
  { s with out := s.out ++ bytes }

/-- `PHASE <- HALTED`, pc unchanged (R150). -/
def State.halt (s : State) : State :=
  { s with phase := .halted }

/-! ## Taking a fault (R310) -/

/-- `raise C(value, pos)`: the whole effect of the step that raises it (R310). There is no handler and no return
(R312, R313). -/
def State.raise (s : State) (cause : FaultCause) (value : Int) (pos : Nat) : State :=
  { s with faultCause := cause, faultValue := value, faultPos := pos, phase := .faulted }

/-! ## The host's read-only views -/

/-- The code of a fault cause (R301). -/
def FaultCause.code : FaultCause → BitVec 4
  | .none => 0
  | .formatError => 1
  | .outOfMemory => 2
  | .unknownOpcode => 3
  | .programBoundsError => 4
  | .unsupportedOpcode => 5
  | .indexBoundsError => 6
  | .unsetLabel => 7
  | .addOverflow => 8

/-- The value of `PHASE` (R51). -/
def Phase.code : Phase → BitVec 2
  | .tokenize => 0
  | .execute => 1
  | .halted => 2
  | .faulted => 3

/-- `EXIT` (R52): 1 when FAULTED, 0 otherwise. -/
def State.exitCode (s : State) : BitVec 1 :=
  if s.phase = .faulted then 1 else 0

/-- `STATUS` (R53): PHASE in bits 1..0, EXIT in bit 2, bits 7..3 read 0. -/
def State.status (s : State) : BitVec 8 :=
  (0 : BitVec 5) ++ s.exitCode ++ s.phase.code

/-- What `ReadStatus` hands the host (R333). -/
structure StatusView where
  status : BitVec 8
  faultCause : BitVec 4
  faultValue : Int
  faultPos : Nat
  progLen : Nat
deriving DecidableEq, Repr

/-- `ReadStatus` (R333): a function of the state, so it has no side effect. DEDUCED (safe; notes/assumptions/10.md). -/
def State.readStatus (s : State) : StatusView :=
  { status := s.status
    faultCause := s.faultCause.code
    faultValue := s.faultValue
    faultPos := s.faultPos
    progLen := s.progLen }

/-- The observable result of a run that has ended: the triple (OUT, EXIT, fault registers) (R335). -/
structure RunResult where
  out : List Byte
  exitCode : BitVec 1
  faultCause : BitVec 4
  faultValue : Int
  faultPos : Nat
deriving DecidableEq, Repr

/-- The result of a run, none while it has not ended: a run has ended when PHASE is HALTED or FAULTED (R335). -/
def State.result? (s : State) : Option RunResult :=
  match s.phase with
  | .tokenize => none
  | .execute => none
  | .halted => some ⟨s.out, s.exitCode, s.faultCause.code, s.faultValue, s.faultPos⟩
  | .faulted => some ⟨s.out, s.exitCode, s.faultCause.code, s.faultValue, s.faultPos⟩

/-- `PC_W` (R16): the smallest width with 2^PC_W > PROG_MAX. -/
def pcWidth (c : Config) : Nat :=
  if c.progMax = 0 then 0 else c.progMax.log2 + 1

end Sys2Proof.Machine
end

