-- ==== Sys2Proof/Machine/Control.lean ====
section
/-! DEFINITION. Machine/Control.lean: HALT (spec/40_dispatch_halt.md R150). -/

namespace Sys2Proof.Machine

/-- HALT (R150): pc keeps HALT's index. -/
def execHalt (s : State) : Host.Outcome State Fault Refusal :=
  .next s.halt

end Sys2Proof.Machine
end

