-- ==== Sys2Proof/Machine/Operands.lean ====
section
/-! DEFINITION. Machine/Operands.lean: what an operand byte or a register value used as an index stands for
(spec/30_encoding.md R122; spec/41_store_add.md R171; spec/43_label_jump.md R221, R222; spec/42_print.md R202). -/

namespace Sys2Proof.Machine

/-- `Imm(b)` (R171): 0..255 under ZERO, -128..127 under SIGN. -/
def immValue (c : Config) (b : Byte) : Int :=
  match c.immExt with
  | .zero => (b.toNat : Int)
  | .sign => b.toInt

/-- `RegIndex(v, hi)` (R222); none where it raises IndexBoundsError. -/
def regIndex (v : Int) (hi : Nat) : Option Nat :=
  if v < 0 ∨ (hi : Int) < v then none else some v.toNat

/-- A register value used as a label index (R34): checked against 0..255. -/
def labelIndex (v : Int) : Option Byte :=
  (regIndex v 255).map (BitVec.ofNat 8)

/-- `LookupLabel(j)` (R221); none where it raises UnsetLabel. -/
def lookupLabel (s : State) (j : Byte) : Option Nat :=
  match s.cfg.unsetLabelPolicy with
  | .zero => some (s.label j)
  | .fault => if s.isLabelSet j then some (s.label j) else none

/-- The decimal digits of n before `tail`, most significant first, no leading zero; nothing for 0. `fuel` bounds the
number of digits. -/
def digitsOnto : Nat → Nat → List Byte → List Byte
  | 0, _, tail => tail
  | fuel + 1, n, tail =>
    if n = 0 then tail else digitsOnto fuel (n / 10) (BitVec.ofNat 8 (0x30 + n % 10) :: tail)

/-- `digits(m)` (R202), each digit d the byte 0x30 + d. A number has at most as many decimal digits as bits.
UNVERIFIED (R202 states them and says that they come from general knowledge, G2; unsafe; notes/assumptions/13.md): the
byte values of the digits and of the minus sign. -/
def digits (m : Nat) : List Byte :=
  digitsOnto (m.log2 + 1) m []

/-- `Dec(v)` (R202): "0", or the digits, with the byte 0x2D before them for a negative value. -/
def decimal (v : Int) : List Byte :=
  if v = 0 then [0x30]
  else if 0 < v then digits v.natAbs
  else 0x2D :: digits v.natAbs

end Sys2Proof.Machine
end

