-- ==== Sys2Proof/Machine/LabelJump.lean ====
section
/-! DEFINITION. Machine/LabelJump.lean: LABELSET_REG, LABELSET_IMM, JUMP_REG, JUMP_IMM and JUMPTRUE
(spec/43_label_jump.md), the only users of the label table (R38). -/

namespace Sys2Proof.Machine

/-- `SetLabel(j, v)`, then pc + 2: the tail of both LABELSET forms (format F1). -/
def labelSetTo (j : Byte) (v : Nat) (s : State) : State :=
  (s.setLabel j v).advance 2

/-- `next <- LookupLabel(j)`, or UnsetLabel(j, pc) (R221). -/
def jumpThrough (j : Byte) (s : State) : State :=
  match lookupLabel s j with
  | some target => s.jump target
  | none => s.raise .unsetLabel j.toNat s.pc

/-- UnsupportedOpcode(op, pc) (R143). -/
def raiseUnsupported (op : Byte) (s : State) : State :=
  s.raise .unsupportedOpcode op.toNat s.pc

/-- LABELSET_REG (R223), by `LABELSET_REG_MODE`. Under UNSUPPORTED the executor raises before it fetches the operand
(R143); the meaning raises the same fault. DEDUCED (safe; notes/assumptions/14.md). -/
def execLabelsetReg (op1 : Byte) (s : State) : Host.Outcome State Fault Refusal :=
  match s.cfg.labelsetRegMode with
  | .indexFromReg =>
    match labelIndex (s.reg op1) with
    | some j => .next (labelSetTo j (s.pc + 2) s)
    | none => .next (s.raise .indexBoundsError (s.reg op1) s.pc)
  | .valueFromReg =>
    match regIndex (s.reg op1) s.cfg.progMax with
    | some v => .next (labelSetTo op1 v s)
    | none => .next (s.raise .indexBoundsError (s.reg op1) s.pc)
  | .unsupported => .next (raiseUnsupported 40 s)

/-- LABELSET_IMM (R225). -/
def execLabelsetImm (lbl : Byte) (s : State) : Host.Outcome State Fault Refusal :=
  .next (labelSetTo lbl (s.pc + 2) s)

/-- JUMP_REG (R226): the index check comes before the label lookup (R314). -/
def execJumpReg (rs : Byte) (s : State) : Host.Outcome State Fault Refusal :=
  match labelIndex (s.reg rs) with
  | some j => .next (jumpThrough j s)
  | none => .next (s.raise .indexBoundsError (s.reg rs) s.pc)

/-- JUMP_IMM (R227). -/
def execJumpImm (lbl : Byte) (s : State) : Host.Outcome State Fault Refusal :=
  .next (jumpThrough lbl s)

/-- JUMPTRUE (R228): always UnsupportedOpcode(44, pc); `JUMPTRUE_MODE` has no other value (R19). The operands have no
roles. -/
def execJumptrue (_op1 _op2 _op3 : Byte) (s : State) : Host.Outcome State Fault Refusal :=
  match s.cfg.jumptrueMode with
  | .unsupported => .next (raiseUnsupported 44 s)

end Sys2Proof.Machine
end

