-- ==== Sys2Proof/Machine/Print.lean ====
section
/-! DEFINITION. Machine/Print.lean: PRINT_REG and PRINT_CHAR (spec/42_print.md), the only writers of the output stream
(R50). Each is format F1, so pc advances by 2 (R145). -/

namespace Sys2Proof.Machine

/-- `Emit(text ++ [NEWLINE])`, then pc + 2. -/
def printLine (text : List Byte) (s : State) : State :=
  (s.emit (text ++ [s.cfg.newline])).advance 2

/-- PRINT_REG (R200). -/
def execPrintReg (rs : Byte) (s : State) : Host.Outcome State Fault Refusal :=
  .next (printLine (decimal (s.reg rs)) s)

/-- PRINT_CHAR (R204): the operand byte itself, with no translation. -/
def execPrintChar (chr : Byte) (s : State) : Host.Outcome State Fault Refusal :=
  .next (printLine [chr] s)

end Sys2Proof.Machine
end

