-- ==== Sys2Proof/Machine/Flags.lean ====
section
/-! DEFINITION. Machine/Flags.lean: range, wrap-around and overflow of a sum (spec/00_scope.md R12, R13, R23;
spec/41_store_add.md R173). The core has no flags (R59); the overflow of an addition is the only condition it computes. -/

namespace Sys2Proof.Machine

/-- A value fits a two's-complement cell of `w` bits (R12): -2^(w-1) ≤ x ≤ 2^(w-1) - 1. -/
abbrev fitsCell (w : Nat) (x : Int) : Prop :=
  -(2 ^ (w - 1) : Int) ≤ x ∧ x ≤ 2 ^ (w - 1) - 1

/-- `wrap_W(x)` (R23): the y in [-2^(W-1), 2^(W-1)-1] with y ≡ x (mod 2^W). -/
def wrapCell (w : Nat) (x : Int) : Int :=
  let r := x % 2 ^ w
  if r < 2 ^ (w - 1) then r else r - 2 ^ w

/-- `Add(x, y, rd)` (R173); none where it raises AddOverflow. -/
def addCells (c : Config) (x y : Int) : Option Int :=
  if fitsCell c.regW (x + y) then some (x + y)
  else
    match c.addOverflow with
    | .wrap => some (wrapCell c.regW (x + y))
    | .fault => none

end Sys2Proof.Machine
end

