-- ==== Sys2Proof/Machine/StoreAdd.lean ====
section
/-! DEFINITION. Machine/StoreAdd.lean: STORE_IMM, STORE_REG, ADD_IMM, ADD_REG (spec/41_store_add.md), the only writers of
the register file (R33). Each is format F2, so pc advances by 3 (R145). -/

namespace Sys2Proof.Machine

/-- `reg[rd] <- v`, then pc + 3. -/
def storeValue (rd : Byte) (v : Int) (s : State) : State :=
  (s.setReg rd v).advance 3

/-- `reg[rd] <- Add(reg[rd], y, rd)`, then pc + 3, or AddOverflow(rd, pc) (R173). -/
def addValue (rd : Byte) (y : Int) (s : State) : State :=
  match addCells s.cfg (s.reg rd) y with
  | some v => storeValue rd v s
  | none => s.raise .addOverflow rd.toNat s.pc

/-- STORE_IMM (R170). -/
def execStoreImm (imm rd : Byte) (s : State) : Host.Outcome State Fault Refusal :=
  .next (storeValue rd (immValue s.cfg imm) s)

/-- STORE_REG (R172). -/
def execStoreReg (rs rd : Byte) (s : State) : Host.Outcome State Fault Refusal :=
  .next (storeValue rd (s.reg rs) s)

/-- ADD_IMM (R174). -/
def execAddImm (imm rd : Byte) (s : State) : Host.Outcome State Fault Refusal :=
  .next (addValue rd (immValue s.cfg imm) s)

/-- ADD_REG (R176); both reads see the value from before the step (R26). -/
def execAddReg (rs rd : Byte) (s : State) : Host.Outcome State Fault Refusal :=
  .next (addValue rd (s.reg rs) s)

end Sys2Proof.Machine
end

