-- ==== Sys2Proof/Machine/Dispatch.lean ====
section
/-! DEFINITION. Machine/Dispatch.lean: one arm per instruction. -/

namespace Sys2Proof.Machine

/-- The `Execute` part of the executor step, with the advance of pc (R145, R146).
DESIGN CHOICE (safe; notes/assumptions/12.md): it is defined on every state; step calls it in EXECUTE only. -/
def exec (i : Instr) (s : State) : Host.Outcome State Fault Refusal :=
  match i with
  | .halt => Sys2Proof.Machine.execHalt s
  | .storeImm imm rd => Sys2Proof.Machine.execStoreImm imm rd s
  | .storeReg rs rd => Sys2Proof.Machine.execStoreReg rs rd s
  | .addImm imm rd => Sys2Proof.Machine.execAddImm imm rd s
  | .addReg rs rd => Sys2Proof.Machine.execAddReg rs rd s
  | .printReg rs => Sys2Proof.Machine.execPrintReg rs s
  | .printChar chr => Sys2Proof.Machine.execPrintChar chr s
  | .labelsetReg op1 => Sys2Proof.Machine.execLabelsetReg op1 s
  | .labelsetImm lbl => Sys2Proof.Machine.execLabelsetImm lbl s
  | .jumpReg rs => Sys2Proof.Machine.execJumpReg rs s
  | .jumpImm lbl => Sys2Proof.Machine.execJumpImm lbl s
  | .jumptrue op1 op2 op3 => Sys2Proof.Machine.execJumptrue op1 op2 op3 s

end Sys2Proof.Machine
end

