-- ==== Sys2Proof/Machine/Tokenizer.lean ====
section
/-! DEFINITION. Machine/Tokenizer.lean: the tokenizer unit's steps (spec/30_encoding.md R104 to R110). -/

namespace Sys2Proof.Machine

/-- The tokenizer's fields at 0, as after each committed token (R45, R110). -/
def State.clearToken (s : State) : State :=
  { s with tkLen := 0, tkFirst := 0, tkAcc := 0 }

/-- `Commit()` (R110); none where it raises OutOfMemory. -/
def commit? (s : State) : Option State :=
  if s.progLen = s.cfg.progMax then none
  else some (s.appendByte s.tkAcc).clearToken

/-- OutOfMemory(PROG_MAX, N) (R110). -/
def raiseOutOfMemory (s : State) : State :=
  s.raise .outOfMemory s.cfg.progMax s.progLen

/-- FormatError(length, N) (R108). -/
def raiseFormatError (length : Nat) (s : State) : State :=
  s.raise .formatError length s.progLen

/-- The pairwise comparator and bit packer on the token's next byte (R105). -/
def packByte (b : Byte) (s : State) : State :=
  if s.tkLen % 2 = 0 then { s with tkFirst := b, tkLen := s.tkLen + 1 }
  else if b = s.tkFirst then
    { s with tkAcc := s.tkAcc ||| ((1 : Byte) <<< ((s.tkLen - 1) / 2)), tkLen := s.tkLen + 1 }
  else { s with tkLen := s.tkLen + 1 }

/-- A tokenizer step on a byte that is not a delimiter (R105). -/
def tokenByte (b : Byte) (s : State) : State :=
  if s.tkLen = 16 then raiseFormatError 17 s else packByte b s

/-- A tokenizer step on a delimiter (R106). -/
def tokenDelimiter (s : State) : State :=
  if s.tkLen = 0 then s
  else if s.tkLen = 16 then (commit? s).getD (raiseOutOfMemory s)
  else raiseFormatError s.tkLen s

/-- The tokenizer step of an accepted `PutByte(b)` (R105, R106, R331). -/
def acceptByte (b : Byte) (s : State) : State :=
  if s.cfg.delimiters.contains b then tokenDelimiter s else tokenByte b s

/-- `PHASE <- EXECUTE`, `pc <- 0` (R107). -/
def State.startExecution (s : State) : State :=
  { s with phase := .execute, pc := 0 }

/-- The tokenizer step of an accepted `EndInput` (R107, R331). -/
def acceptEnd (s : State) : State :=
  if s.tkLen = 16 then
    match commit? s with
    | some t => t.startExecution
    | none => raiseOutOfMemory s
  else if s.tkLen ≠ 0 then raiseFormatError s.tkLen s
  else s.startExecution

end Sys2Proof.Machine
end

