-- ==== Sys2Proof/Machine/Executor.lean ====
section
/-! DEFINITION. Machine/Executor.lean: the executor step (spec/40_dispatch_halt.md R140 to R146), and one step of the
whole core with its host (spec/60_exceptions.md R330, R331, R334; spec/70_reset_and_hazards.md R340). -/

namespace Sys2Proof.Machine

/-- The opcodes that are listed but unsupported (R143): 44, and 40 under LABELSET_REG_MODE = UNSUPPORTED. -/
def unsupported (c : Config) (op : Byte) : Bool :=
  (op == 44 && decide (c.jumptrueMode = .unsupported)) ||
    (op == 40 && decide (c.labelsetRegMode = .unsupported))

/-- The operand bound, the operand fetch and the execution (R144, R145), for an opcode of arity a. -/
def execOperands (op : Byte) (a : Nat) (s : State) : Host.Outcome State Fault Refusal :=
  if s.progLen ≤ s.pc + a then .next (s.raise .programBoundsError s.progLen s.pc)
  else
    match (s.prog.readBytes (s.pc + 1) a).bind (assemble op) with
    | some i => exec i s
    | none => .fault (.unwrittenProgramByte s.pc)

/-- The checks on the opcode byte (R142, R143), in the order of R314. -/
def execOpcode (op : Byte) (s : State) : Host.Outcome State Fault Refusal :=
  match arity? op with
  | none => .next (s.raise .unknownOpcode op.toNat s.pc)
  | some a =>
    if unsupported s.cfg op then .next (raiseUnsupported op s)
    else execOperands op a s

/-- `ExecStep()` (R146). -/
def execStep (s : State) : Host.Outcome State Fault Refusal :=
  if s.progLen ≤ s.pc then .next (s.raise .programBoundsError s.pc s.pc)
  else
    match s.prog.read s.pc with
    | some op => execOpcode op s
    | none => .fault (.unwrittenProgramByte s.pc)

/-- The `Reset` transfer (R340): the reset table, whatever the phase. The host's later transfers are still to
come. DESIGN CHOICE (unsafe; notes/assumptions/18.md): the parameters, which are the run's (R30), stay. -/
def resetTransfer (later : List HostTransfer) (s : State) : State :=
  State.resetWith s.cfg later

/-- What the host still sends after its next `Reset`; none if it sends no `Reset`. -/
def afterReset? : List HostTransfer → Option (List HostTransfer)
  | [] => none
  | .reset :: later => some later
  | .putByte _ :: rest => afterReset? rest
  | .endInput :: rest => afterReset? rest
  | .idle :: rest => afterReset? rest

/-- The step of an ended run (R151, R313): only a Reset leaves it, and the abandoned input before that Reset is lost
(R340); with no Reset to come nothing changes.
DESIGN CHOICE (safe; notes/assumptions/5.md): no step is enabled, and the model's step leaves the state as it is. -/
def endedStep (s : State) : State :=
  match afterReset? s.pending with
  | some later => resetTransfer later s
  | none => s

/-- What the core does on its own, with no host transfer: the executor's step (R334), the wait for the host in TOKENIZE
(R331), nothing in an ended run. -/
def coreStep (s : State) : Host.Outcome State Fault Refusal :=
  match s.phase with
  | .tokenize => .next s
  | .execute => execStep s
  | .halted => .next (endedStep s)
  | .faulted => .next (endedStep s)

/-- An input transfer, the first of `pending`, whose tokenizer step is `accept`: taken in TOKENIZE, otherwise not taken
(R331). DEDUCED (safe; notes/assumptions/17.md): a transfer whose step faults is taken. -/
def inputStep (accept : State → State) (later : List HostTransfer) (s : State) : Host.Outcome State Fault Refusal :=
  match s.phase with
  | .tokenize => .next (accept { s with pending := later })
  | .execute => coreStep s
  | .halted => coreStep s
  | .faulted => coreStep s

/-- One step of the core with its host: the host's next transfer if it is enabled, or the core's own step.
DESIGN CHOICE (unsafe; notes/assumptions/4.md): how the two interleave. -/
def systemStep (s : State) : Host.Outcome State Fault Refusal :=
  match s.pending with
  | [] => coreStep s
  | .reset :: later => .next (resetTransfer later s)
  | .putByte b :: later => inputStep (acceptByte b) later s
  | .endInput :: later => inputStep acceptEnd later s
  | .idle :: later => coreStep { s with pending := later }

/-- The program loaded from outside the machine at pc (R343 steps 1 to 3 done), the executor about to fetch it: the bytes
stand at pc, pc+1, ..., the store reaches past them, the phase is EXECUTE and no host transfer is to come.
DESIGN CHOICE (safe; notes/assumptions/9.md). -/
def State.placeCode (s : State) (bytes : List Byte) : State :=
  { s with
    prog := s.prog.writeBytes s.pc bytes
    progLen := max s.progLen (s.pc + bytes.length)
    phase := .execute
    pending := [] }

end Sys2Proof.Machine
end

