-- ==== Sys2Proof/Machine/Step.lean ====
section
/-! DEFINITION. Machine/Step.lean: the step function of the core, and the placing of one instruction for it. -/

namespace Sys2Proof.Machine

/-- One step of the core (Executor.lean's systemStep), untimed (R354).
DEDUCED (safe; notes/assumptions/15.md): an enabled step is taken (R355). -/
def step (s : State) : Host.Outcome State Fault Refusal :=
  systemStep s

/-- The state with one opcode-table word where the next step fetches (notes/assumptions/9.md). -/
def State.withFetchWord (s : State) (nbits w : Nat) : State :=
  s.placeCode (tableWordBytes nbits w)

end Sys2Proof.Machine
end

