-- ==== Sys2Proof/Machine/Assembler.lean ====
section
/-! DEFINITION. Machine/Assembler.lean: the assembly text of spec/30_encoding.md R128, as bytes. It is a way to write
programs (R128: the spec's own, for its vectors); no step of the machine uses it. -/

namespace Sys2Proof.Machine

/-- A piece of an assembly line. -/
inductive AsmPiece where
  /-- A mnemonic, `.byte`, or a number with its optional prefix. -/
  | word (chars : List Char)
  /-- A quoted character. -/
  | quoted (c : Char)
  /-- The comma between operands. -/
  | comma
deriving DecidableEq, Repr

/-- The word read so far, in order, if there is one. -/
def endWord (reversed : List Char) : List AsmPiece :=
  if reversed.isEmpty then [] else [.word reversed.reverse]

/-- The pieces of a line up to its comment.
DESIGN CHOICE (safe; notes/assumptions/19.md): what R128 leaves open of the text.
`reversed` is the word being read, last character first. -/
def asmPieces (reversed : List Char) : List Char → List AsmPiece
  | [] => endWord reversed
  | '\'' :: c :: '\'' :: rest => endWord reversed ++ .quoted c :: asmPieces [] rest
  | ';' :: _ => endWord reversed
  | ',' :: rest => endWord reversed ++ .comma :: asmPieces [] rest
  | ' ' :: rest => endWord reversed ++ asmPieces [] rest
  | c :: rest => asmPieces (c :: reversed) rest

/-- The number that decimal digits write, `value` being what stands before them; none if one is no digit. -/
def asmNumber (value : Nat) : List Char → Option Nat
  | [] => some value
  | c :: rest => if '0' ≤ c ∧ c ≤ '9' then asmNumber (value * 10 + (c.toNat - 48)) rest else none

/-- A decimal number 0..255. -/
def asmByte : List Char → Option Byte
  | [] => none
  | digits =>
    match asmNumber 0 digits with
    | some n => if n < 256 then some (BitVec.ofNat 8 n) else none
    | none => none

/-- An operand: a number, with the prefix r or L or none, or a quoted ASCII character. -/
def asmOperand : AsmPiece → Option Byte
  | .word ('r' :: digits) => asmByte digits
  | .word ('L' :: digits) => asmByte digits
  | .word digits => asmByte digits
  | .quoted c => if c.toNat < 128 then some (BitVec.ofNat 8 c.toNat) else none
  | .comma => none

/-- Operands separated by commas, op1 first. -/
def asmOperands : List AsmPiece → Option (List Byte)
  | [] => some []
  | [x] => (asmOperand x).map fun b => [b]
  | x :: .comma :: y :: rest =>
    match asmOperand x, asmOperands (y :: rest) with
    | some b, some bs => some (b :: bs)
    | _, _ => none
  | _ :: _ :: _ => none

/-- The mnemonics of R124 and their codes. -/
def asmMnemonics : List (String × Byte) :=
  [("HALT", 0), ("STORE_IMM", 1), ("STORE_REG", 2), ("ADD_IMM", 10), ("ADD_REG", 11), ("PRINT_REG", 20),
    ("PRINT_CHAR", 21), ("LABELSET_REG", 40), ("LABELSET_IMM", 41), ("JUMP_REG", 42), ("JUMP_IMM", 43),
    ("JUMPTRUE", 44)]

/-- The bytes of one line (R128): nothing, one raw byte, or an opcode with exactly its arity of operands; none if the line
is no assembly. -/
def asmLine (line : String) : Option (List Byte) :=
  match asmPieces [] line.toList with
  | [] => some []
  | .word w :: rest =>
    if w = ".byte".toList then
      match asmOperands rest with
      | some [b] => some [b]
      | _ => none
    else
      match asmMnemonics.find? fun m => m.1.toList = w, asmOperands rest with
      | some (_, code), some bs => if arity? code = some bs.length then some (code :: bs) else none
      | _, _ => none
  | _ :: _ => none

/-- The bytes of a program, one instruction a line, in order (R128). -/
def asmProgram : List String → Option (List Byte)
  | [] => some []
  | line :: rest =>
    match asmLine line, asmProgram rest with
    | some bs, some more => some (bs ++ more)
    | _, _ => none

end Sys2Proof.Machine
end

