-- ==== Sys2Proof/Safety.lean ====
section
/-! DEFINITION. Safety.lean: the words the statements are made of: runs, what stays the same, the invariant of the core,
and the batch reading of a source text that the tokenizer is held against. -/

namespace Sys2Proof.Machine

/-! ## Runs -/

/-- `n` steps, stopping where the model stops (R147: a run that is still in EXECUTE after n steps has not ended). -/
def runSteps : Nat → State → Host.Outcome State Fault Refusal
  | 0, s => .next s
  | n + 1, s =>
    match step s with
    | .next t => runSteps n t
    | .fault r => .fault r
    | .refused r => .refused r

/-- No transfer of the host comes before the core's own step: the next transfer is none, or one that needs phase
TOKENIZE. -/
def State.hostQuiet (s : State) : Prop :=
  ∀ later, s.pending ≠ .reset :: later ∧ s.pending ≠ .idle :: later

/-! ## What stays the same -/

/-- Every register reads as before. -/
def SameRegs (s t : State) : Prop :=
  ∀ r, t.reg r = s.reg r

/-- Every register but `rd` reads as before. -/
def SameRegsBut (rd : Byte) (s t : State) : Prop :=
  ∀ r, r ≠ rd → t.reg r = s.reg r

/-- Every label entry and its written-bit read as before. -/
def SameLabels (s t : State) : Prop :=
  ∀ j, t.label j = s.label j ∧ t.isLabelSet j = s.isLabelSet j

/-- Every label entry but `j` and its written-bit read as before. -/
def SameLabelsBut (j : Byte) (s t : State) : Prop :=
  ∀ k, k ≠ j → t.label k = s.label k ∧ t.isLabelSet k = s.isLabelSet k

/-- The program store has its length, and every byte of it reads as before. -/
def SameStore (s t : State) : Prop :=
  t.progLen = s.progLen ∧ ∀ k, t.prog.read k = s.prog.read k

/-- The tokenizer's working state is unchanged. -/
def SameTokenizer (s t : State) : Prop :=
  t.tkLen = s.tkLen ∧ t.tkFirst = s.tkFirst ∧ t.tkAcc = s.tkAcc

/-- The fault registers are unchanged. -/
def SameFault (s t : State) : Prop :=
  t.faultCause = s.faultCause ∧ t.faultValue = s.faultValue ∧ t.faultPos = s.faultPos

/-- The parameters and the host's pending transfers are unchanged. -/
def SameRun (s t : State) : Prop :=
  t.cfg = s.cfg ∧ t.pending = s.pending

/-- What no instruction touches: the program store, the tokenizer, the parameters, the host's transfers. -/
def SameAround (s t : State) : Prop :=
  SameStore s t ∧ SameTokenizer s t ∧ SameRun s t

/-- What an instruction that goes on leaves alone besides: the phase and the fault registers. -/
def SameRunning (s t : State) : Prop :=
  SameAround s t ∧ t.phase = s.phase ∧ SameFault s t

/-- `t` is `s` with `raise cause(value, pos)` performed and nothing else changed (R310). -/
def FaultedFrom (s t : State) (cause : FaultCause) (value : Int) (pos : Nat) : Prop :=
  t.phase = .faulted ∧ t.faultCause = cause ∧ t.faultValue = value ∧ t.faultPos = pos ∧ t.pc = s.pc ∧ t.out = s.out ∧
    SameRegs s t ∧ SameLabels s t ∧ SameAround s t

/-! ## The invariant of the core -/

/-- The width of FAULT_VALUE (R55). -/
def faultWidth (c : Config) : Nat :=
  max c.regW (pcWidth c + 1)

/-- What every state of a run keeps. Each field is a sentence of the spec. -/
structure State.Inv (s : State) : Prop where
  /-- The parameters are in their ranges (R11, R12, R15). -/
  config : s.cfg.wellFormed = true
  /-- A cell holds a two's-complement value of REG_W bits (R12, R31). -/
  regs_fit : ∀ r, fitsCell s.cfg.regW (s.reg r)
  /-- A label holds a value in 0..PROG_MAX (R38). -/
  labels_bound : ∀ j, s.label j ≤ s.cfg.progMax
  /-- A label that was never written is 0 (R37, R39). -/
  labels_unset : ∀ j, s.isLabelSet j = false → s.label j = 0
  /-- The program store is in canonical form. -/
  store_form : s.prog.wf = true
  /-- The program store holds exactly the bytes 0..N-1 (R40). -/
  store_listed : ∀ k, (s.prog.read k).isSome = true ↔ k < s.progLen
  /-- 0 ≤ N ≤ PROG_MAX (R40). -/
  store_bound : s.progLen ≤ s.cfg.progMax
  /-- pc is in 0..PROG_MAX (R43). -/
  pc_bound : s.pc ≤ s.cfg.progMax
  /-- tk_len is in 0..16 (R45). -/
  token_len : s.tkLen ≤ 16
  /-- Between tokens the tokenizer's fields are 0 (R45). -/
  token_clear : s.tkLen = 0 → s.tkFirst = 0 ∧ s.tkAcc = 0
  /-- No bit is packed before its pair is complete (R45). -/
  token_bits : ∀ i, s.tkLen < 2 * i + 2 → s.tkAcc.getLsbD i = false
  /-- The executor runs only after a clean end of input (R107, R350). -/
  token_done : s.phase = .execute ∨ s.phase = .halted → s.tkLen = 0
  /-- While tokenizing no register, label, pc or output has been written (R109, R350). -/
  not_started : s.phase = .tokenize →
    s.pc = 0 ∧ s.out = [] ∧ (∀ r, s.reg r = 0) ∧ ∀ j, s.label j = 0 ∧ s.isLabelSet j = false
  /-- The fault registers are written only by a fault (R58, R313). -/
  no_fault : s.phase ≠ .faulted → s.faultCause = .none ∧ s.faultValue = 0 ∧ s.faultPos = 0
  /-- A fault has a cause (R301, R310). -/
  fault_cause : s.phase = .faulted → s.faultCause ≠ .none
  /-- FAULT_POS is the token's ordinal N for a tokenizer fault and pc for an executor fault (R56, R44, R46). -/
  fault_pos : s.phase = .faulted →
    s.faultPos = if s.faultCause = .formatError ∨ s.faultCause = .outOfMemory then s.progLen else s.pc
  /-- FAULT_VALUE fits its register (R55). -/
  fault_value : fitsCell (faultWidth s.cfg) s.faultValue

/-! ## The batch reading of a source text -/

/-- What becomes of a source text (R100 to R110): the bytes it holds, or the first fault and the bytes before it. -/
inductive LoadResult where
  /-- Every token is well-formed and the store holds them all. -/
  | ready (bytes : List Byte)
  /-- A token is not 16 bytes long; `length` is what FormatError reports (R108). -/
  | formatError (length : Nat) (bytes : List Byte)
  /-- A well-formed token ends while the store is full (R110). -/
  | outOfMemory (bytes : List Byte)
deriving DecidableEq, Repr

/-- The tokens in order, after `bytes` have been stored (R102, R108, R110, R315). -/
def loadTokens (progMax : Nat) (bytes : List Byte) : List (List Byte) → LoadResult
  | [] => .ready bytes
  | t :: ts =>
    if t.length ≠ 16 then .formatError (min t.length 17) bytes
    else if bytes.length = progMax then .outOfMemory bytes
    else loadTokens progMax (bytes ++ [decodeToken t]) ts

/-- The whole text: split into tokens, check, decode, store. -/
def loadText (c : Config) (text : List Byte) : LoadResult :=
  loadTokens c.progMax [] (splitTokens c.delimiters text)

/-- The host's transfers for a source text: every byte, then the end of input (R343). -/
def textTransfers (text : List Byte) : List HostTransfer :=
  text.map .putByte ++ [.endInput]

/-- The program store of `s` is exactly `bytes`. -/
def StoreIs (s : State) (bytes : List Byte) : Prop :=
  s.progLen = bytes.length ∧ ∀ k, s.prog.read k = bytes[k]?

/-! ## Reading a decimal text back -/

/-- The number a sequence of ASCII digits writes in base ten, most significant first; `acc` is what stands before. -/
def readDigits (acc : Nat) : List Byte → Nat
  | [] => acc
  | d :: rest => readDigits (acc * 10 + (d.toNat - 0x30)) rest

end Sys2Proof.Machine
end

