-- ==== Sys2Proof/Certificates/Slice0/Obligations.lean ====
section
/-! DEFINITION. Certificates/Slice0/Obligations.lean: the statements about the model, from the numbered rules of spec/. -/

open Sys2Proof Sys2Proof.Machine

/-! ## Reset and the invariant -/

/-- R62, R340: after reset every piece of state has the value of the reset table, for all parameters. The program store's
bytes are unspecified there (R342), so nothing is said of them; the host's transfers to come are the model's own field
(notes/assumptions/4.md). -/
def Obligations.ResetGivesTheResetTable : Prop :=
  ∀ (c : Config) (later : List HostTransfer), ∃ s, s = State.resetWith c later ∧ s.cfg = c ∧
    (∀ r, s.reg r = 0) ∧ (∀ j, s.label j = 0 ∧ s.isLabelSet j = false) ∧ s.progLen = 0 ∧ s.pc = 0 ∧
    s.tkLen = 0 ∧ s.tkFirst = 0 ∧ s.tkAcc = 0 ∧ s.phase = .tokenize ∧
    s.faultCause = .none ∧ s.faultValue = 0 ∧ s.faultPos = 0 ∧ s.out = [] ∧
    s.faultCause.code = 0 ∧ s.phase.code = 0

/-- R340: the host's Reset may come in any phase, and sets every piece of state to its reset value. It keeps the
parameters of the run (the model's field `cfg`, notes/assumptions/1.md). -/
def Obligations.ResetTransferResetsInAnyPhase : Prop :=
  ∀ (s : State) (later : List HostTransfer), s.pending = .reset :: later →
    ∃ t, step s = .next t ∧ t.cfg = s.cfg ∧ t.pending = later ∧
      (∀ r, t.reg r = 0) ∧ (∀ j, t.label j = 0 ∧ t.isLabelSet j = false) ∧ t.progLen = 0 ∧ t.pc = 0 ∧
      t.tkLen = 0 ∧ t.tkFirst = 0 ∧ t.tkAcc = 0 ∧ t.phase = .tokenize ∧
      t.faultCause = .none ∧ t.faultValue = 0 ∧ t.faultPos = 0 ∧ t.out = []

/-- The invariant holds of every reset state whose parameters are in their ranges, so of State.reset. -/
def Obligations.ResetStateMeetsTheInvariant : Prop :=
  State.reset.Inv ∧
    ∀ (c : Config) (later : List HostTransfer), c.wellFormed = true → (State.resetWith c later).Inv

/-- The invariant State.Inv, from every state that has it, whatever the host sends and in every phase. That a step where
none is enabled leaves the state as it is, and that a Reset keeps the parameters, is the model's choice
(notes/assumptions/5.md, 18.md). -/
def Obligations.EveryStepKeepsTheInvariant : Prop :=
  ∀ s t : State, s.Inv → step s = .next t → t.Inv

/-- From every state with the invariant the model's step answers a next state: it neither stops with a model fault nor
refuses. In HALTED, in FAULTED and while waiting in TOKENIZE the spec enables no step (R151, R313, R331): that the model
answers one there, the state as it is, is its own choice (notes/assumptions/5.md). -/
def Obligations.InvariantStatesAlwaysStep : Prop :=
  ∀ s : State, s.Inv → ∃ t, step s = .next t

/-- R16, and what R36, R42, R55, R56 say of widths: PC_W is the smallest width that holds PROG_MAX, and in every state
with the invariant pc and the labels fit PC_W bits, N too, FAULT_POS too, and FAULT_VALUE fits max(REG_W, PC_W + 1) bits. -/
def Obligations.ValuesFitTheirWidths : Prop :=
  (∀ c : Config, c.progMax < 2 ^ pcWidth c ∧ ∀ w, c.progMax < 2 ^ w → pcWidth c ≤ w) ∧
  ∀ s : State, s.Inv →
    s.pc < 2 ^ pcWidth s.cfg ∧ (∀ j, s.label j < 2 ^ pcWidth s.cfg) ∧ s.progLen < 2 ^ pcWidth s.cfg ∧
    s.faultPos < 2 ^ pcWidth s.cfg ∧
    -(2 ^ (max s.cfg.regW (pcWidth s.cfg + 1) - 1) : Int) ≤ s.faultValue ∧
    s.faultValue < 2 ^ (max s.cfg.regW (pcWidth s.cfg + 1) - 1)

/-! ## Encoding -/

/-- R120, R121, R124: decoding and encoding agree in both directions: bytes decode to an instruction with a rest exactly
when they are its encoding followed by that rest. -/
def Obligations.DecodeAndEncodeAgree : Prop :=
  ∀ (bytes rest : List Byte) (i : Instr), decode bytes = .ok (i, rest) ↔ bytes = encode i ++ rest

/-- R125, R123: exactly the 244 byte values that the opcode map does not list are no opcodes, whatever follows them, and a
listed opcode fails to decode only for want of operand bytes. -/
def Obligations.DecodingFailsOnlyAsTheMapSays : Prop :=
  ∀ (op : Byte) (rest : List Byte),
    (decode (op :: rest) = .error (.unknownOpcode op) ↔
      op.toNat ∉ [0, 1, 2, 10, 11, 20, 21, 40, 41, 42, 43, 44]) ∧
    (decode (op :: rest) = .error (.truncated op) ↔ ∃ a, arity? op = some a ∧ rest.length < a) ∧
    ((∃ i tail, decode (op :: rest) = .ok (i, tail)) ↔ ∃ a, arity? op = some a ∧ a ≤ rest.length)

/-- The words of R129 and of the examples of R150 to R228, byte by byte, decode to the instructions they stand for. -/
def Obligations.ExampleWordsDecode : Prop :=
  decode [0x00] = .ok (.halt, []) ∧ decode [0x01, 5, 0] = .ok (.storeImm 5 0, []) ∧
  decode [0x02, 3, 9] = .ok (.storeReg 3 9, []) ∧ decode [0x0A, 4, 0] = .ok (.addImm 4 0, []) ∧
  decode [0x0B, 1, 0] = .ok (.addReg 1 0, []) ∧ decode [0x14, 0] = .ok (.printReg 0, []) ∧
  decode [0x15, 0x41] = .ok (.printChar 0x41, []) ∧ decode [0x28, 2] = .ok (.labelsetReg 2, []) ∧
  decode [0x29, 0] = .ok (.labelsetImm 0, []) ∧ decode [0x2A, 5] = .ok (.jumpReg 5, []) ∧
  decode [0x2B, 0] = .ok (.jumpImm 0, []) ∧ decode [0x2C, 0, 1, 2] = .ok (.jumptrue 0 1 2, [])

/-- R102, R73: bit i of the byte a 16-byte token decodes to is 1 exactly when the bytes at offsets 2i and 2i+1 are equal. -/
def Obligations.TokenBitsComparePairs : Prop :=
  ∀ (t : List Byte) (i : Nat), t.length = 16 → i < 8 →
    ((decodeToken t).getLsbD i = true ↔ t[2 * i]? = t[2 * i + 1]?)

/-- R111, R112: the canonical text of any program splits into the canonical tokens of its bytes, each well-formed and
decoding to its byte, for every set of delimiters that has the space and not the two letters of the canonical pairs. -/
def Obligations.CanonicalTextDecodesToItsBytes : Prop :=
  ∀ (c : Config) (bytes : List Byte), 0x20 ∈ c.delimiters → 0x61 ∉ c.delimiters → 0x62 ∉ c.delimiters →
    splitTokens c.delimiters (encodeText bytes) = bytes.map encodeToken ∧
    ∀ b ∈ bytes, tokenWellFormed c (encodeToken b) = true ∧ decodeToken (encodeToken b) = b

/-- R128: a line that assembles gives no byte, one raw byte, or the encoding of an instruction. -/
def Obligations.AssembledLinesAreInstructions : Prop :=
  ∀ (line : String) (bytes : List Byte), asmLine line = some bytes →
    bytes = [] ∨ (∃ v, bytes = [v]) ∨ ∃ i : Instr, bytes = encode i

/-- R128, R129: lines of the spec's examples and what they assemble to, and the canonical source text of the first. -/
def Obligations.ExampleLinesAssemble : Prop :=
  asmLine "STORE_IMM 5, r0" = some [1, 5, 0] ∧
  encodeText [1, 5, 0] = "aaababababababab aaabaaababababab abababababababab".toList.map (fun c => BitVec.ofNat 8 c.toNat) ∧
  asmLine "HALT" = some [0] ∧ asmLine "STORE_REG r3, r9" = some [2, 3, 9] ∧ asmLine "ADD_REG r1, r0" = some [11, 1, 0] ∧
  asmLine "ADD_IMM 1, r0        ; loop: pc 15" = some [10, 1, 0] ∧ asmLine "PRINT_REG r0" = some [20, 0] ∧
  asmLine "PRINT_CHAR 'A'" = some [21, 65] ∧ asmLine "LABELSET_REG r2" = some [40, 2] ∧
  asmLine "LABELSET_IMM L0" = some [41, 0] ∧ asmLine "JUMP_REG r5" = some [42, 5] ∧ asmLine "JUMP_IMM L0" = some [43, 0] ∧
  asmLine "JUMPTRUE 0, 0, 0" = some [44, 0, 0, 0] ∧ asmLine ".byte 99" = some [99] ∧
  asmProgram ["PRINT_CHAR 'A'", ".byte 99", "PRINT_CHAR 'B'", "HALT"] = some [21, 65, 99, 21, 66, 0]

/-! ## The tokenizer -/

/-- R105, R331: an accepted byte that is no delimiter, by the number of token bytes before it: at an even offset it is
latched, at an odd offset it is compared with the latched byte and sets bit (k-1)/2 when equal, and a 17th byte raises
FormatError(17, N). -/
def Obligations.TokenByteIsPaired : Prop :=
  ∀ (s : State) (b : Byte) (later : List HostTransfer), s.phase = .tokenize → s.pending = .putByte b :: later →
    b ∉ s.cfg.delimiters →
    (s.tkLen ≠ 16 → s.tkLen % 2 = 0 →
      step s = .next { s with pending := later, tkFirst := b, tkLen := s.tkLen + 1 }) ∧
    (s.tkLen ≠ 16 → s.tkLen % 2 = 1 → ∃ acc, step s = .next { s with pending := later, tkAcc := acc, tkLen := s.tkLen + 1 } ∧
      ∀ i, i < 8 → acc.getLsbD i = (s.tkAcc.getLsbD i || (i == (s.tkLen - 1) / 2 && b == s.tkFirst))) ∧
    (s.tkLen = 16 → ∃ t, step s = .next t ∧ FaultedFrom { s with pending := later } t .formatError 17 s.progLen)

/-- R106, R110: an accepted delimiter: skipped between tokens; after 16 bytes the token's byte is appended at index N and
the tokenizer is cleared, or OutOfMemory(PROG_MAX, N) is raised when the store is full; after any other number of bytes
FormatError(tk_len, N) is raised. -/
def Obligations.DelimiterEndsTheToken : Prop :=
  ∀ (s : State) (b : Byte) (later : List HostTransfer), s.phase = .tokenize → s.pending = .putByte b :: later →
    b ∈ s.cfg.delimiters →
    (s.tkLen = 0 → step s = .next { s with pending := later }) ∧
    (s.tkLen = 16 → s.progLen ≠ s.cfg.progMax →
      ∃ t, step s = .next { s with
          pending := later, prog := t, progLen := s.progLen + 1, tkLen := 0, tkFirst := 0, tkAcc := 0 } ∧
        (s.prog.wf = true → t.wf = true) ∧
        ∀ k, t.read k = if k = s.progLen then some s.tkAcc else s.prog.read k) ∧
    (s.tkLen = 16 → s.progLen = s.cfg.progMax →
      ∃ t, step s = .next t ∧ FaultedFrom { s with pending := later } t .outOfMemory s.cfg.progMax s.progLen) ∧
    (s.tkLen ≠ 0 → s.tkLen ≠ 16 →
      ∃ t, step s = .next t ∧ FaultedFrom { s with pending := later } t .formatError s.tkLen s.progLen)

/-- R107, R110: the accepted end of input: it commits a complete token (or raises OutOfMemory), refuses an incomplete one
with FormatError(tk_len, N), and otherwise starts execution at pc 0. -/
def Obligations.EndInputStartsExecution : Prop :=
  ∀ (s : State) (later : List HostTransfer), s.phase = .tokenize → s.pending = .endInput :: later →
    (s.tkLen = 0 → step s = .next { s with pending := later, phase := .execute, pc := 0 }) ∧
    (s.tkLen = 16 → s.progLen ≠ s.cfg.progMax →
      ∃ t, step s = .next { s with
          pending := later, prog := t, progLen := s.progLen + 1, tkLen := 0, tkFirst := 0, tkAcc := 0
          phase := .execute, pc := 0 } ∧
        (s.prog.wf = true → t.wf = true) ∧
        ∀ k, t.read k = if k = s.progLen then some s.tkAcc else s.prog.read k) ∧
    (s.tkLen = 16 → s.progLen = s.cfg.progMax →
      ∃ t, step s = .next t ∧ FaultedFrom { s with pending := later } t .outOfMemory s.cfg.progMax s.progLen) ∧
    (s.tkLen ≠ 0 → s.tkLen ≠ 16 →
      ∃ t, step s = .next t ∧ FaultedFrom { s with pending := later } t .formatError s.tkLen s.progLen)

/-- R331: outside TOKENIZE the host's PutByte and EndInput are not enabled: the core does not take them, and its own step
is the one it would take with no transfer to come. In TOKENIZE with no transfer to come the core waits, for any number of
steps (that the waiting step leaves the state as it is: notes/assumptions/5.md). -/
def Obligations.InputIsTakenOnlyWhileTokenizing : Prop :=
  (∀ (s t : State) (x : HostTransfer) (later : List HostTransfer), s.pending = x :: later → x ≠ .reset → x ≠ .idle →
    s.phase = .execute → step { s with pending := [] } = .next t → step s = .next { t with pending := s.pending }) ∧
  (∀ (s : State) (x : HostTransfer) (later : List HostTransfer), s.pending = x :: later →
    (∀ y ∈ s.pending, y ≠ .reset ∧ y ≠ .idle) → s.phase = .halted ∨ s.phase = .faulted → ∀ n, runSteps n s = .next s) ∧
  (∀ s : State, s.phase = .tokenize → s.pending = [] → ∀ n, runSteps n s = .next s)

/-- R102, R104, R110: the incremental tokenizer computes R102's decode: a well-formed token and the delimiter after it,
read from between tokens with room in the store, append exactly the token's byte. -/
def Obligations.TokenizerPacksOneToken : Prop :=
  ∀ (s : State) (t : List Byte) (d : Byte) (later : List HostTransfer), s.phase = .tokenize →
    s.tkLen = 0 → s.tkFirst = 0 → s.tkAcc = 0 → tokenWellFormed s.cfg t = true → d ∈ s.cfg.delimiters →
    s.progLen < s.cfg.progMax → s.pending = t.map .putByte ++ .putByte d :: later →
    ∃ m, runSteps 17 s = .next { s with pending := later, prog := m, progLen := s.progLen + 1 } ∧
      (s.prog.wf = true → m.wf = true) ∧
      ∀ k, m.read k = if k = s.progLen then some (decodeToken t) else s.prog.read k

/-- R100 to R110, R315, R350: for all parameters and every source text, the run of the tokenizer over the text and the end
of input has the outcome of the batch reading: split at runs of delimiters, refuse the first token that is not 16 bytes
long (reporting at most 17) or does not fit, else store every token's byte and start execution at pc 0 with every
register, label and the output as reset left them. Of the text.length + 1 steps those after a fault are the model's: the
spec enables none there (R109, R313), and that they are answered and change nothing is notes/assumptions/5.md. -/
def Obligations.TokenizerComputesTheBatchReading : Prop :=
  ∀ (c : Config) (text : List Byte), ∃ t,
    runSteps (text.length + 1) (State.resetWith c (textTransfers text)) = .next t ∧ t.pc = 0 ∧ t.out = [] ∧ t.cfg = c ∧
    SameRegs (State.resetWith c []) t ∧ SameLabels (State.resetWith c []) t ∧
    match loadText c text with
    | .ready bytes =>
      t.phase = .execute ∧ t.pending = [] ∧ StoreIs t bytes ∧ t.tkLen = 0 ∧ t.faultCause = .none
    | .formatError length bytes =>
      t.phase = .faulted ∧ StoreIs t bytes ∧ t.faultCause = .formatError ∧ t.faultValue = length ∧
        t.faultPos = bytes.length
    | .outOfMemory bytes =>
      t.phase = .faulted ∧ StoreIs t bytes ∧ t.faultCause = .outOfMemory ∧ t.faultValue = c.progMax ∧
        t.faultPos = bytes.length

/-- R111, R343: from reset with the host sending the canonical text of a sequence of instructions, the core comes to
EXECUTE at pc 0 with exactly their encoding in the program store, whenever it fits. -/
def Obligations.CanonicalTextLoadsTheProgram : Prop :=
  ∀ (c : Config) (is : List Instr), 0x20 ∈ c.delimiters → 0x61 ∉ c.delimiters → 0x62 ∉ c.delimiters →
    (encodeAll is).length ≤ c.progMax →
    ∃ t, runSteps ((encodeText (encodeAll is)).length + 1)
        (State.resetWith c (textTransfers (encodeText (encodeAll is)))) = .next t ∧
      t.phase = .execute ∧ t.pc = 0 ∧ t.out = [] ∧ t.pending = [] ∧ StoreIs t (encodeAll is) ∧
      SameRegs (State.resetWith c []) t ∧ SameLabels (State.resetWith c []) t

/-- R109: no tokenizer step writes the output, a register, a label or pc (0 throughout the phase, State.Inv); and after a
fault no more input is consumed (that the step then leaves the state as it is: notes/assumptions/5.md). -/
def Obligations.TokenizerStepsLeaveTheExecutorAlone : Prop :=
  ∀ (s t : State) (x : HostTransfer) (later : List HostTransfer), s.Inv → s.pending = x :: later → x ≠ .reset → x ≠ .idle →
    step s = .next t →
    (s.phase = .tokenize → t.pending = later ∧ SameRegs s t ∧ SameLabels s t ∧ t.out = s.out ∧ t.pc = s.pc ∧
      t.cfg = s.cfg) ∧
    (s.phase = .faulted → (∀ y ∈ later, y ≠ .reset) → t = s)

/-! ## The executor's step -/

/-- R146, R314: the executor's step is the whole of R146, its checks in that order. Every state with
the invariant falls under exactly one of the cases below, each of them with the earlier ones excluded. -/
def Obligations.StepMakesTheChecksInOrder : Prop :=
  ∀ s : State, s.Inv → s.phase = .execute → s.hostQuiet →
    (s.progLen ≤ s.pc → ∃ t, step s = .next t ∧ FaultedFrom s t .programBoundsError s.pc s.pc) ∧
    (s.pc < s.progLen → ∃ op, s.prog.read s.pc = some op ∧
      (op.toNat ∉ [0, 1, 2, 10, 11, 20, 21, 40, 41, 42, 43, 44] →
        ∃ t, step s = .next t ∧ FaultedFrom s t .unknownOpcode op.toNat s.pc) ∧
      (op = 44 ∨ op = 40 ∧ s.cfg.labelsetRegMode = .unsupported →
        ∃ t, step s = .next t ∧ FaultedFrom s t .unsupportedOpcode op.toNat s.pc) ∧
      ∀ a, arity? op = some a → ¬ (op = 44 ∨ op = 40 ∧ s.cfg.labelsetRegMode = .unsupported) →
        (s.progLen ≤ s.pc + a → ∃ t, step s = .next t ∧ FaultedFrom s t .programBoundsError s.progLen s.pc) ∧
        (s.pc + a < s.progLen → ∃ i, i.opcode = op ∧ i.arity = a ∧
          s.prog.readBytes s.pc (1 + a) = some (encode i) ∧ step s = exec i s))

/-- R140, R141, R144, R145: when the bytes at pc decode to an instruction and lie below N, a step in EXECUTE is exec of that
instruction; an idle entry of the host's schedule is passed over. -/
def Obligations.StepRunsTheDecodedInstruction : Prop :=
  ∀ (s : State) (i : Instr) (bytes : List Byte) (n : Nat), s.phase = .execute →
    s.prog.readBytes s.pc n = some bytes → decode bytes = .ok (i, []) → s.pc + n ≤ s.progLen →
    (s.hostQuiet → step s = exec i s) ∧
    (∀ later, s.pending = .idle :: later → step s = exec i { s with pending := later })

/-- R141: with pc at or past N the step raises ProgramBoundsError(pc, pc) and does nothing else. -/
def Obligations.FetchPastTheEndFaults : Prop :=
  ∀ s : State, s.phase = .execute → s.hostQuiet → s.progLen ≤ s.pc →
    ∃ t, step s = .next t ∧ FaultedFrom s t .programBoundsError s.pc s.pc

/-- R142, R125: a byte at pc that the opcode map does not list raises UnknownOpcode(op, pc), whatever follows it. -/
def Obligations.UnlistedByteFaults : Prop :=
  ∀ (s : State) (op : Byte), s.phase = .execute → s.hostQuiet → s.pc < s.progLen → s.prog.read s.pc = some op →
    op.toNat ∉ [0, 1, 2, 10, 11, 20, 21, 40, 41, 42, 43, 44] →
    ∃ t, step s = .next t ∧ FaultedFrom s t .unknownOpcode op.toNat s.pc

/-- R143: opcode 44, and opcode 40 under LABELSET_REG_MODE = UNSUPPORTED, raise UnsupportedOpcode(op, pc), whether or not
their operands fit in the program. -/
def Obligations.UnsupportedOpcodeFaultsBeforeItsOperands : Prop :=
  ∀ (s : State) (op : Byte), s.phase = .execute → s.hostQuiet → s.pc < s.progLen → s.prog.read s.pc = some op →
    (op = 44 ∨ op = 40 ∧ s.cfg.labelsetRegMode = .unsupported) →
    ∃ t, step s = .next t ∧ FaultedFrom s t .unsupportedOpcode op.toNat s.pc

/-- R144: a supported opcode whose operands reach N raises ProgramBoundsError(N, pc) before any operand is read. -/
def Obligations.TruncatedInstructionFaults : Prop :=
  ∀ (s : State) (op : Byte) (a : Nat), s.phase = .execute → s.hostQuiet → s.pc < s.progLen →
    s.prog.read s.pc = some op → arity? op = some a → op ≠ 44 →
    ¬ (op = 40 ∧ s.cfg.labelsetRegMode = .unsupported) → s.progLen ≤ s.pc + a →
    ∃ t, step s = .next t ∧ FaultedFrom s t .programBoundsError s.progLen s.pc

/-- R43, R145, R150: pc after an instruction that answers a next state: one that is no jump and no HALT and does not fault
moves it past itself and its operands; HALT and a fault leave it; a jump that does not fault sets it to a label. -/
def Obligations.PcAdvancesPastTheInstruction : Prop :=
  ∀ (i : Instr) (s t : State), s.phase = .execute → exec i s = .next t →
    (t.phase = .execute → (∀ r, i ≠ .jumpReg r) → (∀ j, i ≠ .jumpImm j) → t.pc = s.pc + 1 + i.arity) ∧
    (t.phase = .execute → (∃ r, i = .jumpReg r) ∨ (∃ j, i = .jumpImm j) → ∃ j, t.pc = s.label j) ∧
    (t.phase ≠ .execute → t.pc = s.pc)

/-- R140, R151, R313, R350: the phases a step can lead to, whatever the host sends, Reset apart: TOKENIZE to itself, EXECUTE or
FAULTED; EXECUTE to itself, HALTED or FAULTED, and to HALTED only by HALT at pc; HALTED and FAULTED only to themselves. The steps
of a waiting and of an ended core are the model's (notes/assumptions/5.md). -/
def Obligations.PhasesFollowTheRun : Prop :=
  ∀ s t : State, (∀ x ∈ s.pending, x ≠ .reset) → step s = .next t →
    (s.phase = .tokenize → t.phase = .tokenize ∨ t.phase = .execute ∨ t.phase = .faulted) ∧
    (s.phase = .execute → t.phase = .execute ∨ t.phase = .faulted ∨
      t.phase = .halted ∧ s.prog.read s.pc = some 0 ∧ s.pc < s.progLen) ∧
    (s.phase = .halted → t.phase = .halted) ∧ (s.phase = .faulted → t.phase = .faulted)

/-- R151, R313, R325: HALTED and FAULTED are terminal: with no Reset among the host's transfers, any number of steps leaves
everything but the host's own schedule as it is. -/
def Obligations.EndedRunsStayAsTheyAre : Prop :=
  ∀ (s : State) (n : Nat), s.phase = .halted ∨ s.phase = .faulted → (∀ x ∈ s.pending, x ≠ .reset) →
    ∃ later, runSteps n s = .next { s with pending := later }

/-! ## Faults -/

/-- R310, R311, R44: a step of the executor into FAULTED changes PHASE and the fault registers and nothing else, and
FAULT_POS is pc. -/
def Obligations.ExecutorFaultsArePrecise : Prop :=
  ∀ s t : State, s.phase = .execute → s.hostQuiet → step s = .next t → t.phase = .faulted →
    t.faultCause ≠ .none ∧ FaultedFrom s t t.faultCause t.faultValue s.pc

/-- R301, R34, R221, R222: the fault table: row 0 after reset, and from TOKENIZE or EXECUTE each cause a step can leave in
FAULT_CAUSE, with what raises it, its code, FAULT_VALUE and FAULT_POS. -/
def Obligations.FaultTableHolds : Prop :=
  (∀ (c : Config) (later : List HostTransfer), (State.resetWith c later).faultCause.code = 0 ∧
    (State.resetWith c later).faultValue = 0 ∧ (State.resetWith c later).faultPos = 0) ∧
  ∀ s t : State, s.phase = .tokenize ∨ s.phase = .execute → (∀ later, s.pending ≠ .idle :: later) → step s = .next t →
    t.phase = .faulted →
    match t.faultCause with
    | .none => False
    | .formatError => t.faultCause.code = 1 ∧ s.phase = .tokenize ∧ t.faultPos = s.progLen ∧ s.tkLen ≠ 0 ∧
        (t.faultValue = s.tkLen ∧ s.tkLen ≠ 16 ∨ t.faultValue = 17 ∧ s.tkLen = 16) ∧
        (s.tkLen ≤ 16 → 1 ≤ t.faultValue ∧ t.faultValue ≤ 15 ∨ t.faultValue = 17)
    | .outOfMemory => t.faultCause.code = 2 ∧ s.phase = .tokenize ∧ t.faultPos = s.progLen ∧
        s.progLen = s.cfg.progMax ∧ t.faultValue = s.cfg.progMax ∧ s.tkLen = 16
    | .unknownOpcode => t.faultCause.code = 3 ∧ s.phase = .execute ∧ t.faultPos = s.pc ∧
        ∃ op, s.prog.read s.pc = some op ∧ arity? op = none ∧ t.faultValue = op.toNat
    | .programBoundsError => t.faultCause.code = 4 ∧ s.phase = .execute ∧ t.faultPos = s.pc ∧
        (s.progLen ≤ s.pc ∧ t.faultValue = s.pc ∨ s.pc < s.progLen ∧ t.faultValue = s.progLen ∧
          ∃ op a, s.prog.read s.pc = some op ∧ arity? op = some a ∧ s.progLen ≤ s.pc + a)
    | .unsupportedOpcode => t.faultCause.code = 5 ∧ s.phase = .execute ∧ t.faultPos = s.pc ∧
        (s.prog.read s.pc = some 44 ∧ t.faultValue = 44 ∨
          s.prog.read s.pc = some 40 ∧ t.faultValue = 40 ∧ s.cfg.labelsetRegMode = .unsupported)
    | .indexBoundsError => t.faultCause.code = 6 ∧ s.phase = .execute ∧ t.faultPos = s.pc ∧
        ∃ r, s.prog.read (s.pc + 1) = some r ∧ t.faultValue = s.reg r ∧
          (s.prog.read s.pc = some 42 ∧ ¬ (0 ≤ s.reg r ∧ s.reg r ≤ 255) ∨
            s.prog.read s.pc = some 40 ∧
              (s.cfg.labelsetRegMode = .indexFromReg ∧ ¬ (0 ≤ s.reg r ∧ s.reg r ≤ 255) ∨
                s.cfg.labelsetRegMode = .valueFromReg ∧ ¬ (0 ≤ s.reg r ∧ s.reg r ≤ s.cfg.progMax)))
    | .unsetLabel => t.faultCause.code = 7 ∧ s.phase = .execute ∧ t.faultPos = s.pc ∧
        s.cfg.unsetLabelPolicy = .fault ∧ ∃ j : Byte, t.faultValue = j.toNat ∧ s.isLabelSet j = false ∧
          (s.prog.read s.pc = some 43 ∧ s.prog.read (s.pc + 1) = some j ∨
            s.prog.read s.pc = some 42 ∧ ∃ r, s.prog.read (s.pc + 1) = some r ∧ s.reg r = j.toNat)
    | .addOverflow => t.faultCause.code = 8 ∧ s.phase = .execute ∧ t.faultPos = s.pc ∧ s.cfg.addOverflow = .fault ∧
        ∃ rd : Byte, s.prog.read (s.pc + 2) = some rd ∧ t.faultValue = rd.toNat ∧
          (s.prog.read s.pc = some 10 ∨ s.prog.read s.pc = some 11)

/-- R302: under ADD_OVERFLOW = WRAP and UNSET_LABEL_POLICY = ZERO no run, from any state whose cause is another, ever
reports UnsetLabel or AddOverflow. The run may pass a Reset, and that the parameters stay as they are there is the model's
choice (notes/assumptions/18.md); so are its steps where none is enabled (5.md). -/
def Obligations.DefaultParametersNeverRaiseSevenOrEight : Prop :=
  ∀ (n : Nat) (s t : State), s.cfg.addOverflow = .wrap → s.cfg.unsetLabelPolicy = .zero →
    s.faultCause ≠ .unsetLabel → s.faultCause ≠ .addOverflow → runSteps n s = .next t →
    t.faultCause ≠ .unsetLabel ∧ t.faultCause ≠ .addOverflow

/-- R51, R52, R53, R303, R333: STATUS holds PHASE in bits 1..0, EXIT in bit 2 and 0 above; EXIT is 1 exactly in FAULTED; and
ReadStatus hands over STATUS, the fault registers and N. -/
def Obligations.StatusShowsPhaseAndExit : Prop :=
  (Phase.tokenize.code = 0 ∧ Phase.execute.code = 1 ∧ Phase.halted.code = 2 ∧ Phase.faulted.code = 3) ∧
  ∀ s : State, s.status.extractLsb' 0 2 = s.phase.code ∧ s.status.getLsbD 2 = (s.exitCode == 1) ∧
    s.status.extractLsb' 3 5 = 0 ∧ (s.exitCode = 1 ↔ s.phase = .faulted) ∧ (s.exitCode = 0 ↔ s.phase ≠ .faulted) ∧
    s.readStatus.status = s.status ∧ s.readStatus.faultCause = s.faultCause.code ∧
    s.readStatus.faultValue = s.faultValue ∧ s.readStatus.faultPos = s.faultPos ∧ s.readStatus.progLen = s.progLen

/-- R335: a run has a result exactly when it is HALTED or FAULTED, and the result is the triple (OUT, EXIT, fault
registers). -/
def Obligations.EndedRunsHaveTheirResult : Prop :=
  ∀ s : State, (s.result?.isSome = true ↔ s.phase = .halted ∨ s.phase = .faulted) ∧
    ∀ x, s.result? = some x → x.out = s.out ∧ x.faultCause = s.faultCause.code ∧ x.faultValue = s.faultValue ∧
      x.faultPos = s.faultPos ∧ (s.phase = .halted → x.exitCode = 0) ∧ (s.phase = .faulted → x.exitCode = 1)

/-! ## What each instruction does -/

/-- R150: HALT, byte 0x00, stops the run, with pc, the registers, the labels and the output as they are. -/
def Obligations.HaltStopsTheRun : Prop :=
  encode .halt = [0x00] ∧ ∀ s : State, ∃ t, exec .halt s = .next t ∧ t.phase = .halted ∧ t.pc = s.pc ∧ t.out = s.out ∧
    SameRegs s t ∧ SameLabels s t ∧ SameAround s t ∧ SameFault s t ∧ t.exitCode = 0

/-- R170, R171: STORE_IMM, bytes 0x01, imm, rd, writes the immediate, 0..255 under ZERO and its two's-complement value
under SIGN, to its destination and changes nothing else but pc. -/
def Obligations.StoreImmWritesTheImmediate : Prop :=
  ∀ (s : State) (imm rd : Byte), encode (.storeImm imm rd) = [0x01, imm, rd] ∧
    ∃ t, exec (.storeImm imm rd) s = .next t ∧
    (s.cfg.immExt = .zero → t.reg rd = imm.toNat) ∧
    (s.cfg.immExt = .sign → t.reg rd = if imm.toNat < 128 then (imm.toNat : Int) else imm.toNat - 256) ∧
    SameRegsBut rd s t ∧ SameLabels s t ∧ t.out = s.out ∧ t.pc = s.pc + 3 ∧ SameRunning s t

/-- R172: STORE_REG, bytes 0x02, rs, rd, copies the whole value and changes nothing else but pc; with one register as both it changes no register. -/
def Obligations.StoreRegCopiesTheRegister : Prop :=
  ∀ (s : State) (rs rd : Byte), encode (.storeReg rs rd) = [0x02, rs, rd] ∧
    ∃ t, exec (.storeReg rs rd) s = .next t ∧ t.reg rd = s.reg rs ∧
    SameRegsBut rd s t ∧ SameLabels s t ∧ t.out = s.out ∧ t.pc = s.pc + 3 ∧ SameRunning s t

/-- R173, R174, R176, R13: ADD_IMM, bytes 0x0A, imm, rd, and ADD_REG, bytes 0x0B, rs, rd. The destination gets the exact sum
when it fits REG_W bits; else under WRAP the one value of a cell that is congruent to it modulo 2^REG_W (R23); nothing else
but pc changes. Else under FAULT AddOverflow(rd, pc) is raised. -/
def Obligations.AddsFollowTheirRule : Prop :=
  (∀ src rd : Byte, encode (.addImm src rd) = [0x0A, src, rd] ∧ encode (.addReg src rd) = [0x0B, src, rd]) ∧
  ∀ (s : State) (src rd : Byte) (i : Instr) (y : Int), 9 ≤ s.cfg.regW →
    (i = .addImm src rd ∧ (s.cfg.immExt = .zero → y = src.toNat) ∧
        (s.cfg.immExt = .sign → y = if src.toNat < 128 then (src.toNat : Int) else src.toNat - 256) ∨
      i = .addReg src rd ∧ y = s.reg src) →
    (fitsCell s.cfg.regW (s.reg rd + y) ∨ s.cfg.addOverflow = .wrap →
      ∃ t, exec i s = .next t ∧
        (fitsCell s.cfg.regW (s.reg rd + y) → t.reg rd = s.reg rd + y) ∧
        fitsCell s.cfg.regW (t.reg rd) ∧ (2 ^ s.cfg.regW : Int) ∣ (s.reg rd + y) - t.reg rd ∧
        SameRegsBut rd s t ∧ SameLabels s t ∧ t.out = s.out ∧ t.pc = s.pc + 3 ∧ SameRunning s t) ∧
    (¬ fitsCell s.cfg.regW (s.reg rd + y) → s.cfg.addOverflow = .fault →
      ∃ t, exec i s = .next t ∧ FaultedFrom s t .addOverflow rd.toNat s.pc)

/-- R177: under WRAP the order of two additions to one register does not matter. -/
def Obligations.WrappingAdditionsCommute : Prop :=
  ∀ (s t u t' u' : State) (a b rd : Byte), 9 ≤ s.cfg.regW → s.cfg.addOverflow = .wrap →
    a ≠ rd → b ≠ rd →
    exec (.addReg a rd) s = .next t → exec (.addReg b rd) t = .next u →
    exec (.addReg b rd) s = .next t' → exec (.addReg a rd) t' = .next u' →
    u = u'

/-- R200: PRINT_REG, bytes 0x14, rs, appends the decimal text of the register and one NEWLINE byte, in that order, and changes nothing else
but pc. What the text is: DecimalTextIsTheDecimalForm. -/
def Obligations.PrintRegEmitsTheDecimalText : Prop :=
  ∀ (s : State) (rs : Byte), encode (.printReg rs) = [0x14, rs] ∧ ∃ t, exec (.printReg rs) s = .next t ∧
    t.out = s.out ++ decimal (s.reg rs) ++ [s.cfg.newline] ∧
    SameRegs s t ∧ SameLabels s t ∧ t.pc = s.pc + 2 ∧ SameRunning s t

/-- R202: the decimal text: "0" for 0; else a minus sign exactly for a negative value and then digit bytes 0x30..0x39, the
first of them not 0x30, that read back in base ten as the magnitude. -/
def Obligations.DecimalTextIsTheDecimalForm : Prop :=
  decimal 0 = [0x30] ∧ ∀ v : Int, v ≠ 0 → ∃ first rest,
    decimal v = (if v < 0 then [0x2D] else []) ++ first :: rest ∧ first ≠ 0x30 ∧
    (∀ d ∈ first :: rest, 0x30 ≤ d.toNat ∧ d.toNat ≤ 0x39) ∧ readDigits 0 (first :: rest) = v.natAbs

/-- R201, R76: PRINT_REG appends len(Dec(v)) + 1 bytes: 2 for 0..9, and at most 12 when REG_W = 32. -/
def Obligations.PrintRegAppendsAtMostTwelveBytes : Prop :=
  ∀ (s t : State) (rs : Byte), exec (.printReg rs) s = .next t →
    t.out.length = s.out.length + (decimal (s.reg rs)).length + 1 ∧
    (0 ≤ s.reg rs → s.reg rs ≤ 9 → t.out.length = s.out.length + 2) ∧
    (s.cfg.regW = 32 → fitsCell s.cfg.regW (s.reg rs) → t.out.length ≤ s.out.length + 12)

/-- R204, R205: PRINT_CHAR, bytes 0x15, chr, appends its operand byte as it stands and one NEWLINE byte, and changes nothing else but pc. -/
def Obligations.PrintCharEmitsTheByte : Prop :=
  ∀ (s : State) (chr : Byte), encode (.printChar chr) = [0x15, chr] ∧
    ∃ t, exec (.printChar chr) s = .next t ∧ t.out = s.out ++ [chr, s.cfg.newline] ∧
    SameRegs s t ∧ SameLabels s t ∧ t.pc = s.pc + 2 ∧ SameRunning s t

/-- R220, R225: LABELSET_IMM, bytes 0x29, lbl, sets the label to pc + 2 and marks it written; nothing else but pc changes. -/
def Obligations.LabelsetImmMarksTheNextInstruction : Prop :=
  ∀ (s : State) (lbl : Byte), encode (.labelsetImm lbl) = [0x29, lbl] ∧
    ∃ t, exec (.labelsetImm lbl) s = .next t ∧ t.label lbl = s.pc + 2 ∧
    t.isLabelSet lbl = true ∧ SameLabelsBut lbl s t ∧ SameRegs s t ∧ t.out = s.out ∧ t.pc = s.pc + 2 ∧ SameRunning s t

/-- R223, R222, R220: LABELSET_REG, bytes 0x28, op1, in each mode: INDEX_FROM_REG sets the label that the register names to pc + 2;
VALUE_FROM_REG sets the label op1 to the register's value; a register value out of the mode's range raises
IndexBoundsError(value, pc); UNSUPPORTED raises UnsupportedOpcode(40, pc). -/
def Obligations.LabelsetRegFollowsItsMode : Prop :=
  ∀ (s : State) (op1 : Byte), encode (.labelsetReg op1) = [0x28, op1] ∧
    (s.cfg.labelsetRegMode = .indexFromReg → ∀ j : Byte, s.reg op1 = j.toNat →
      ∃ t, exec (.labelsetReg op1) s = .next t ∧ t.label j = s.pc + 2 ∧ t.isLabelSet j = true ∧ SameLabelsBut j s t ∧
        SameRegs s t ∧ t.out = s.out ∧ t.pc = s.pc + 2 ∧ SameRunning s t) ∧
    (s.cfg.labelsetRegMode = .valueFromReg → 0 ≤ s.reg op1 → s.reg op1 ≤ s.cfg.progMax →
      ∃ t, exec (.labelsetReg op1) s = .next t ∧ (t.label op1 : Int) = s.reg op1 ∧ t.isLabelSet op1 = true ∧
        SameLabelsBut op1 s t ∧ SameRegs s t ∧ t.out = s.out ∧ t.pc = s.pc + 2 ∧ SameRunning s t) ∧
    (s.cfg.labelsetRegMode = .indexFromReg → ¬ (0 ≤ s.reg op1 ∧ s.reg op1 ≤ 255) →
      ∃ t, exec (.labelsetReg op1) s = .next t ∧ FaultedFrom s t .indexBoundsError (s.reg op1) s.pc) ∧
    (s.cfg.labelsetRegMode = .valueFromReg → ¬ (0 ≤ s.reg op1 ∧ s.reg op1 ≤ s.cfg.progMax) →
      ∃ t, exec (.labelsetReg op1) s = .next t ∧ FaultedFrom s t .indexBoundsError (s.reg op1) s.pc) ∧
    (s.cfg.labelsetRegMode = .unsupported →
      ∃ t, exec (.labelsetReg op1) s = .next t ∧ FaultedFrom s t .unsupportedOpcode 40 s.pc)

/-- R227, R221, R229: JUMP_IMM, bytes 0x2B, lbl, sets pc to the label's value and nothing else; under ZERO, in a state with
the invariant, a jump through a label never written goes to index 0; under FAULT it raises UnsetLabel(lbl, pc). -/
def Obligations.JumpImmGoesToTheLabel : Prop :=
  ∀ (s : State) (lbl : Byte), encode (.jumpImm lbl) = [0x2B, lbl] ∧
    (s.cfg.unsetLabelPolicy = .zero ∨ s.isLabelSet lbl = true →
      ∃ t, exec (.jumpImm lbl) s = .next t ∧ t.pc = s.label lbl ∧ SameRegs s t ∧ SameLabels s t ∧ t.out = s.out ∧
        SameRunning s t) ∧
    (s.Inv → s.cfg.unsetLabelPolicy = .zero → s.isLabelSet lbl = false → ∃ t, exec (.jumpImm lbl) s = .next t ∧ t.pc = 0) ∧
    (s.cfg.unsetLabelPolicy = .fault → s.isLabelSet lbl = false →
      ∃ t, exec (.jumpImm lbl) s = .next t ∧ FaultedFrom s t .unsetLabel lbl.toNat s.pc)

/-- R226, R221, R222, R314: JUMP_REG, bytes 0x2A, rs, jumps through the label that the register names; a register value
outside 0..255 raises IndexBoundsError(value, pc), before the label is looked at; under FAULT a label never written raises UnsetLabel(j, pc). -/
def Obligations.JumpRegGoesThroughTheNamedLabel : Prop :=
  ∀ (s : State) (rs : Byte), encode (.jumpReg rs) = [0x2A, rs] ∧
    (∀ j : Byte, s.reg rs = j.toNat → s.cfg.unsetLabelPolicy = .zero ∨ s.isLabelSet j = true →
      ∃ t, exec (.jumpReg rs) s = .next t ∧ t.pc = s.label j ∧ SameRegs s t ∧ SameLabels s t ∧ t.out = s.out ∧
        SameRunning s t) ∧
    (∀ j : Byte, s.reg rs = j.toNat → s.cfg.unsetLabelPolicy = .fault → s.isLabelSet j = false →
      ∃ t, exec (.jumpReg rs) s = .next t ∧ FaultedFrom s t .unsetLabel j.toNat s.pc) ∧
    (¬ (0 ≤ s.reg rs ∧ s.reg rs ≤ 255) →
      ∃ t, exec (.jumpReg rs) s = .next t ∧ FaultedFrom s t .indexBoundsError (s.reg rs) s.pc)

/-- R228, R143: JUMPTRUE, bytes 0x2C, op1, op2, op3, raises UnsupportedOpcode(44, pc), whatever its operands. -/
def Obligations.JumptrueIsUnsupported : Prop :=
  ∀ (s : State) (op1 op2 op3 : Byte), encode (.jumptrue op1 op2 op3) = [0x2C, op1, op2, op3] ∧
    ∃ t, exec (.jumptrue op1 op2 op3) s = .next t ∧
    FaultedFrom s t .unsupportedOpcode 44 s.pc

/-! ## Frames, and rules about all instructions -/

/-- R40, R41, R58, R86, R109: no instruction changes the program store, its length, the tokenizer's state, the parameters
or the host's transfers; and the fault registers and PHASE are as before unless it faults or halts. -/
def Obligations.NoInstructionWritesTheProgramStore : Prop :=
  ∀ (i : Instr) (s t : State), exec i s = .next t → SameAround s t ∧
    (t.phase ≠ .faulted → SameFault s t) ∧ (t.phase = s.phase ∨ t.phase = .faulted ∨ t.phase = .halted ∧ i = .halt)

/-- R33, R174, R176: only STORE_IMM, STORE_REG, ADD_IMM and ADD_REG write the register file, each only its destination. -/
def Obligations.OnlyStoresAndAddsWriteRegisters : Prop :=
  ∀ (i : Instr) (s t : State) (r : Byte), exec i s = .next t → t.reg r ≠ s.reg r →
    (∃ imm, i = .storeImm imm r) ∨ (∃ rs, i = .storeReg rs r) ∨ (∃ imm, i = .addImm imm r) ∨ (∃ rs, i = .addReg rs r)

/-- R38, R39: only LABELSET_IMM and LABELSET_REG write the label table, one entry each, every written entry is marked, and the
value written is pc + 2 or, under VALUE_FROM_REG, a value in 0..PROG_MAX. -/
def Obligations.OnlyLabelsetsWriteLabels : Prop :=
  ∀ (i : Instr) (s t : State) (j : Byte), exec i s = .next t →
    t.label j ≠ s.label j ∨ t.isLabelSet j ≠ s.isLabelSet j →
    ((∃ lbl, i = .labelsetImm lbl) ∨ ∃ op1, i = .labelsetReg op1) ∧ t.isLabelSet j = true ∧ SameLabelsBut j s t ∧
    (t.label j = s.pc + 2 ∨ s.cfg.labelsetRegMode = .valueFromReg ∧ t.label j ≤ s.cfg.progMax)

/-- R50, R205, R77: the output stream is empty at reset, only PRINT_REG and PRINT_CHAR change it, each appends at least two
bytes, the last of them NEWLINE, and no byte is ever removed or changed, by a fault neither. -/
def Obligations.OnlyPrintsWriteOutput : Prop :=
  (∀ (c : Config) (later : List HostTransfer), (State.resetWith c later).out = []) ∧
  ∀ (i : Instr) (s t : State), exec i s = .next t →
    (t.out = s.out ∧ (∀ r, i ≠ .printReg r) ∧ (∀ c, i ≠ .printChar c)) ∨
    ((∃ r, i = .printReg r) ∨ ∃ c, i = .printChar c) ∧
      ∃ text, text ≠ [] ∧ t.out = s.out ++ text ++ [s.cfg.newline]

/-- R50, R206: along any run without a Reset the output only grows at its end. A run's steps where none is enabled are the
model's (notes/assumptions/5.md). -/
def Obligations.OutputOnlyGrows : Prop :=
  ∀ (n : Nat) (s t : State), (∀ x ∈ s.pending, x ≠ .reset) → runSteps n s = .next t → ∃ more, t.out = s.out ++ more

/-- R39: under UNSET_LABEL_POLICY = ZERO the flags label_set can never be observed: two states that differ in nothing but
them run to states that differ in nothing but them. The run may pass a Reset, and that UNSET_LABEL_POLICY stays ZERO there
is the model's choice (notes/assumptions/18.md); so are its steps where none is enabled (5.md). -/
def Obligations.LabelFlagsAreUnobservableUnderZero : Prop :=
  ∀ (n : Nat) (s t : State) (flags : Vector Bool 256), s.cfg.unsetLabelPolicy = .zero → runSteps n s = .next t →
    ∃ flags', runSteps n { s with labelSet := flags } = .next { t with labelSet := flags' }

/-- R45, R60: once execution has begun the tokenizer's working state is hidden: two states in EXECUTE that differ in nothing
but it step to states that differ in nothing but it, and a run without a Reset shows the host the same status and output.
A run's steps where none is enabled are the model's (notes/assumptions/5.md). -/
def Obligations.TokenizerStateIsHiddenFromExecution : Prop :=
  ∀ (n : Nat) (s t : State) (len : Nat) (first acc : Byte), s.phase ≠ .tokenize → (∀ x ∈ s.pending, x ≠ .reset) →
    runSteps n s = .next t →
    runSteps n { s with tkLen := len, tkFirst := first, tkAcc := acc } =
      .next { t with tkLen := len, tkFirst := first, tkAcc := acc }

/-- R232: under LABELSET_REG_MODE = INDEX_FROM_REG or UNSUPPORTED, take any run that has just begun to execute (EXECUTE,
pc 0, every label 0, a program store as the invariant has it, no transfer of the host to come). Once it has taken a jump
it never halts: after any further number of steps it is still in EXECUTE, or has faulted with AddOverflow under
ADD_OVERFLOW = FAULT, IndexBoundsError, or UnsetLabel under UNSET_LABEL_POLICY = FAULT. The steps after the fault are the
model's (notes/assumptions/5.md). -/
def Obligations.ARunThatHasJumpedNeverHalts : Prop :=
  ∀ (s u v w : State) (i : Instr) (k n m : Nat) (bytes : List Byte),
    s.Inv → s.phase = .execute → s.pc = 0 → (∀ j, s.label j = 0) → s.pending = [] →
    s.cfg.labelsetRegMode ≠ .valueFromReg →
    runSteps k s = .next u → u.phase = .execute → u.prog.readBytes u.pc n = some bytes → decode bytes = .ok (i, []) →
    u.pc + n ≤ u.progLen → ((∃ r, i = .jumpReg r) ∨ ∃ j, i = .jumpImm j) →
    step u = .next v → v.phase = .execute → runSteps m v = .next w →
    w.phase = .execute ∨ w.phase = .faulted ∧
      (w.faultCause = .addOverflow ∧ s.cfg.addOverflow = .fault ∨ w.faultCause = .indexBoundsError ∨
        w.faultCause = .unsetLabel ∧ s.cfg.unsetLabelPolicy = .fault)
end

