-- ==== Sys2Proof/Laws/State.lean ====
section
/-! SUPPORT. Laws/State.lean: one lemma per field per update of the state, each true by rfl, and how the register and
label accessors see each update. -/

namespace Sys2Proof.Machine

/-! ### State.setReg -/

@[simp] theorem State.setReg_cfg (s : State) (r : Byte) (v : Int) : (s.setReg r v).cfg = s.cfg := rfl
@[simp] theorem State.setReg_regs (s : State) (r : Byte) (v : Int) : (s.setReg r v).regs = s.regs.set r.toNat v r.isLt := rfl
@[simp] theorem State.setReg_labels (s : State) (r : Byte) (v : Int) : (s.setReg r v).labels = s.labels := rfl
@[simp] theorem State.setReg_labelSet (s : State) (r : Byte) (v : Int) : (s.setReg r v).labelSet = s.labelSet := rfl
@[simp] theorem State.setReg_prog (s : State) (r : Byte) (v : Int) : (s.setReg r v).prog = s.prog := rfl
@[simp] theorem State.setReg_progLen (s : State) (r : Byte) (v : Int) : (s.setReg r v).progLen = s.progLen := rfl
@[simp] theorem State.setReg_pc (s : State) (r : Byte) (v : Int) : (s.setReg r v).pc = s.pc := rfl
@[simp] theorem State.setReg_tkLen (s : State) (r : Byte) (v : Int) : (s.setReg r v).tkLen = s.tkLen := rfl
@[simp] theorem State.setReg_tkFirst (s : State) (r : Byte) (v : Int) : (s.setReg r v).tkFirst = s.tkFirst := rfl
@[simp] theorem State.setReg_tkAcc (s : State) (r : Byte) (v : Int) : (s.setReg r v).tkAcc = s.tkAcc := rfl
@[simp] theorem State.setReg_phase (s : State) (r : Byte) (v : Int) : (s.setReg r v).phase = s.phase := rfl
@[simp] theorem State.setReg_faultCause (s : State) (r : Byte) (v : Int) : (s.setReg r v).faultCause = s.faultCause := rfl
@[simp] theorem State.setReg_faultValue (s : State) (r : Byte) (v : Int) : (s.setReg r v).faultValue = s.faultValue := rfl
@[simp] theorem State.setReg_faultPos (s : State) (r : Byte) (v : Int) : (s.setReg r v).faultPos = s.faultPos := rfl
@[simp] theorem State.setReg_out (s : State) (r : Byte) (v : Int) : (s.setReg r v).out = s.out := rfl
@[simp] theorem State.setReg_pending (s : State) (r : Byte) (v : Int) : (s.setReg r v).pending = s.pending := rfl

@[simp] theorem State.setReg_label (s : State) (r : Byte) (v : Int) (k : Byte) : (s.setReg r v).label k = s.label k := rfl
@[simp] theorem State.setReg_isLabelSet (s : State) (r : Byte) (v : Int) (k : Byte) : (s.setReg r v).isLabelSet k = s.isLabelSet k := rfl

/-! ### State.setLabel -/

@[simp] theorem State.setLabel_cfg (s : State) (j : Byte) (v : Nat) : (s.setLabel j v).cfg = s.cfg := rfl
@[simp] theorem State.setLabel_regs (s : State) (j : Byte) (v : Nat) : (s.setLabel j v).regs = s.regs := rfl
@[simp] theorem State.setLabel_labels (s : State) (j : Byte) (v : Nat) : (s.setLabel j v).labels = s.labels.set j.toNat v j.isLt := rfl
@[simp] theorem State.setLabel_labelSet (s : State) (j : Byte) (v : Nat) : (s.setLabel j v).labelSet = s.labelSet.set j.toNat true j.isLt := rfl
@[simp] theorem State.setLabel_prog (s : State) (j : Byte) (v : Nat) : (s.setLabel j v).prog = s.prog := rfl
@[simp] theorem State.setLabel_progLen (s : State) (j : Byte) (v : Nat) : (s.setLabel j v).progLen = s.progLen := rfl
@[simp] theorem State.setLabel_pc (s : State) (j : Byte) (v : Nat) : (s.setLabel j v).pc = s.pc := rfl
@[simp] theorem State.setLabel_tkLen (s : State) (j : Byte) (v : Nat) : (s.setLabel j v).tkLen = s.tkLen := rfl
@[simp] theorem State.setLabel_tkFirst (s : State) (j : Byte) (v : Nat) : (s.setLabel j v).tkFirst = s.tkFirst := rfl
@[simp] theorem State.setLabel_tkAcc (s : State) (j : Byte) (v : Nat) : (s.setLabel j v).tkAcc = s.tkAcc := rfl
@[simp] theorem State.setLabel_phase (s : State) (j : Byte) (v : Nat) : (s.setLabel j v).phase = s.phase := rfl
@[simp] theorem State.setLabel_faultCause (s : State) (j : Byte) (v : Nat) : (s.setLabel j v).faultCause = s.faultCause := rfl
@[simp] theorem State.setLabel_faultValue (s : State) (j : Byte) (v : Nat) : (s.setLabel j v).faultValue = s.faultValue := rfl
@[simp] theorem State.setLabel_faultPos (s : State) (j : Byte) (v : Nat) : (s.setLabel j v).faultPos = s.faultPos := rfl
@[simp] theorem State.setLabel_out (s : State) (j : Byte) (v : Nat) : (s.setLabel j v).out = s.out := rfl
@[simp] theorem State.setLabel_pending (s : State) (j : Byte) (v : Nat) : (s.setLabel j v).pending = s.pending := rfl

@[simp] theorem State.setLabel_reg (s : State) (j : Byte) (v : Nat) (k : Byte) : (s.setLabel j v).reg k = s.reg k := rfl

/-! ### State.advance -/

@[simp] theorem State.advance_cfg (s : State) (n : Nat) : (s.advance n).cfg = s.cfg := rfl
@[simp] theorem State.advance_regs (s : State) (n : Nat) : (s.advance n).regs = s.regs := rfl
@[simp] theorem State.advance_labels (s : State) (n : Nat) : (s.advance n).labels = s.labels := rfl
@[simp] theorem State.advance_labelSet (s : State) (n : Nat) : (s.advance n).labelSet = s.labelSet := rfl
@[simp] theorem State.advance_prog (s : State) (n : Nat) : (s.advance n).prog = s.prog := rfl
@[simp] theorem State.advance_progLen (s : State) (n : Nat) : (s.advance n).progLen = s.progLen := rfl
@[simp] theorem State.advance_pc (s : State) (n : Nat) : (s.advance n).pc = s.pc + n := rfl
@[simp] theorem State.advance_tkLen (s : State) (n : Nat) : (s.advance n).tkLen = s.tkLen := rfl
@[simp] theorem State.advance_tkFirst (s : State) (n : Nat) : (s.advance n).tkFirst = s.tkFirst := rfl
@[simp] theorem State.advance_tkAcc (s : State) (n : Nat) : (s.advance n).tkAcc = s.tkAcc := rfl
@[simp] theorem State.advance_phase (s : State) (n : Nat) : (s.advance n).phase = s.phase := rfl
@[simp] theorem State.advance_faultCause (s : State) (n : Nat) : (s.advance n).faultCause = s.faultCause := rfl
@[simp] theorem State.advance_faultValue (s : State) (n : Nat) : (s.advance n).faultValue = s.faultValue := rfl
@[simp] theorem State.advance_faultPos (s : State) (n : Nat) : (s.advance n).faultPos = s.faultPos := rfl
@[simp] theorem State.advance_out (s : State) (n : Nat) : (s.advance n).out = s.out := rfl
@[simp] theorem State.advance_pending (s : State) (n : Nat) : (s.advance n).pending = s.pending := rfl

@[simp] theorem State.advance_reg (s : State) (n : Nat) (k : Byte) : (s.advance n).reg k = s.reg k := rfl
@[simp] theorem State.advance_label (s : State) (n : Nat) (k : Byte) : (s.advance n).label k = s.label k := rfl
@[simp] theorem State.advance_isLabelSet (s : State) (n : Nat) (k : Byte) : (s.advance n).isLabelSet k = s.isLabelSet k := rfl

/-! ### State.jump -/

@[simp] theorem State.jump_cfg (s : State) (target : Nat) : (s.jump target).cfg = s.cfg := rfl
@[simp] theorem State.jump_regs (s : State) (target : Nat) : (s.jump target).regs = s.regs := rfl
@[simp] theorem State.jump_labels (s : State) (target : Nat) : (s.jump target).labels = s.labels := rfl
@[simp] theorem State.jump_labelSet (s : State) (target : Nat) : (s.jump target).labelSet = s.labelSet := rfl
@[simp] theorem State.jump_prog (s : State) (target : Nat) : (s.jump target).prog = s.prog := rfl
@[simp] theorem State.jump_progLen (s : State) (target : Nat) : (s.jump target).progLen = s.progLen := rfl
@[simp] theorem State.jump_pc (s : State) (target : Nat) : (s.jump target).pc = target := rfl
@[simp] theorem State.jump_tkLen (s : State) (target : Nat) : (s.jump target).tkLen = s.tkLen := rfl
@[simp] theorem State.jump_tkFirst (s : State) (target : Nat) : (s.jump target).tkFirst = s.tkFirst := rfl
@[simp] theorem State.jump_tkAcc (s : State) (target : Nat) : (s.jump target).tkAcc = s.tkAcc := rfl
@[simp] theorem State.jump_phase (s : State) (target : Nat) : (s.jump target).phase = s.phase := rfl
@[simp] theorem State.jump_faultCause (s : State) (target : Nat) : (s.jump target).faultCause = s.faultCause := rfl
@[simp] theorem State.jump_faultValue (s : State) (target : Nat) : (s.jump target).faultValue = s.faultValue := rfl
@[simp] theorem State.jump_faultPos (s : State) (target : Nat) : (s.jump target).faultPos = s.faultPos := rfl
@[simp] theorem State.jump_out (s : State) (target : Nat) : (s.jump target).out = s.out := rfl
@[simp] theorem State.jump_pending (s : State) (target : Nat) : (s.jump target).pending = s.pending := rfl

@[simp] theorem State.jump_reg (s : State) (target : Nat) (k : Byte) : (s.jump target).reg k = s.reg k := rfl
@[simp] theorem State.jump_label (s : State) (target : Nat) (k : Byte) : (s.jump target).label k = s.label k := rfl
@[simp] theorem State.jump_isLabelSet (s : State) (target : Nat) (k : Byte) : (s.jump target).isLabelSet k = s.isLabelSet k := rfl

/-! ### State.emit -/

@[simp] theorem State.emit_cfg (s : State) (bytes : List Byte) : (s.emit bytes).cfg = s.cfg := rfl
@[simp] theorem State.emit_regs (s : State) (bytes : List Byte) : (s.emit bytes).regs = s.regs := rfl
@[simp] theorem State.emit_labels (s : State) (bytes : List Byte) : (s.emit bytes).labels = s.labels := rfl
@[simp] theorem State.emit_labelSet (s : State) (bytes : List Byte) : (s.emit bytes).labelSet = s.labelSet := rfl
@[simp] theorem State.emit_prog (s : State) (bytes : List Byte) : (s.emit bytes).prog = s.prog := rfl
@[simp] theorem State.emit_progLen (s : State) (bytes : List Byte) : (s.emit bytes).progLen = s.progLen := rfl
@[simp] theorem State.emit_pc (s : State) (bytes : List Byte) : (s.emit bytes).pc = s.pc := rfl
@[simp] theorem State.emit_tkLen (s : State) (bytes : List Byte) : (s.emit bytes).tkLen = s.tkLen := rfl
@[simp] theorem State.emit_tkFirst (s : State) (bytes : List Byte) : (s.emit bytes).tkFirst = s.tkFirst := rfl
@[simp] theorem State.emit_tkAcc (s : State) (bytes : List Byte) : (s.emit bytes).tkAcc = s.tkAcc := rfl
@[simp] theorem State.emit_phase (s : State) (bytes : List Byte) : (s.emit bytes).phase = s.phase := rfl
@[simp] theorem State.emit_faultCause (s : State) (bytes : List Byte) : (s.emit bytes).faultCause = s.faultCause := rfl
@[simp] theorem State.emit_faultValue (s : State) (bytes : List Byte) : (s.emit bytes).faultValue = s.faultValue := rfl
@[simp] theorem State.emit_faultPos (s : State) (bytes : List Byte) : (s.emit bytes).faultPos = s.faultPos := rfl
@[simp] theorem State.emit_out (s : State) (bytes : List Byte) : (s.emit bytes).out = s.out ++ bytes := rfl
@[simp] theorem State.emit_pending (s : State) (bytes : List Byte) : (s.emit bytes).pending = s.pending := rfl

@[simp] theorem State.emit_reg (s : State) (bytes : List Byte) (k : Byte) : (s.emit bytes).reg k = s.reg k := rfl
@[simp] theorem State.emit_label (s : State) (bytes : List Byte) (k : Byte) : (s.emit bytes).label k = s.label k := rfl
@[simp] theorem State.emit_isLabelSet (s : State) (bytes : List Byte) (k : Byte) : (s.emit bytes).isLabelSet k = s.isLabelSet k := rfl

/-! ### State.halt -/

@[simp] theorem State.halt_cfg (s : State) : (s.halt).cfg = s.cfg := rfl
@[simp] theorem State.halt_regs (s : State) : (s.halt).regs = s.regs := rfl
@[simp] theorem State.halt_labels (s : State) : (s.halt).labels = s.labels := rfl
@[simp] theorem State.halt_labelSet (s : State) : (s.halt).labelSet = s.labelSet := rfl
@[simp] theorem State.halt_prog (s : State) : (s.halt).prog = s.prog := rfl
@[simp] theorem State.halt_progLen (s : State) : (s.halt).progLen = s.progLen := rfl
@[simp] theorem State.halt_pc (s : State) : (s.halt).pc = s.pc := rfl
@[simp] theorem State.halt_tkLen (s : State) : (s.halt).tkLen = s.tkLen := rfl
@[simp] theorem State.halt_tkFirst (s : State) : (s.halt).tkFirst = s.tkFirst := rfl
@[simp] theorem State.halt_tkAcc (s : State) : (s.halt).tkAcc = s.tkAcc := rfl
@[simp] theorem State.halt_phase (s : State) : (s.halt).phase = .halted := rfl
@[simp] theorem State.halt_faultCause (s : State) : (s.halt).faultCause = s.faultCause := rfl
@[simp] theorem State.halt_faultValue (s : State) : (s.halt).faultValue = s.faultValue := rfl
@[simp] theorem State.halt_faultPos (s : State) : (s.halt).faultPos = s.faultPos := rfl
@[simp] theorem State.halt_out (s : State) : (s.halt).out = s.out := rfl
@[simp] theorem State.halt_pending (s : State) : (s.halt).pending = s.pending := rfl

@[simp] theorem State.halt_reg (s : State) (k : Byte) : (s.halt).reg k = s.reg k := rfl
@[simp] theorem State.halt_label (s : State) (k : Byte) : (s.halt).label k = s.label k := rfl
@[simp] theorem State.halt_isLabelSet (s : State) (k : Byte) : (s.halt).isLabelSet k = s.isLabelSet k := rfl

/-! ### State.raise -/

@[simp] theorem State.raise_cfg (s : State) (c : FaultCause) (v : Int) (p : Nat) : (s.raise c v p).cfg = s.cfg := rfl
@[simp] theorem State.raise_regs (s : State) (c : FaultCause) (v : Int) (p : Nat) : (s.raise c v p).regs = s.regs := rfl
@[simp] theorem State.raise_labels (s : State) (c : FaultCause) (v : Int) (p : Nat) : (s.raise c v p).labels = s.labels := rfl
@[simp] theorem State.raise_labelSet (s : State) (c : FaultCause) (v : Int) (p : Nat) : (s.raise c v p).labelSet = s.labelSet := rfl
@[simp] theorem State.raise_prog (s : State) (c : FaultCause) (v : Int) (p : Nat) : (s.raise c v p).prog = s.prog := rfl
@[simp] theorem State.raise_progLen (s : State) (c : FaultCause) (v : Int) (p : Nat) : (s.raise c v p).progLen = s.progLen := rfl
@[simp] theorem State.raise_pc (s : State) (c : FaultCause) (v : Int) (p : Nat) : (s.raise c v p).pc = s.pc := rfl
@[simp] theorem State.raise_tkLen (s : State) (c : FaultCause) (v : Int) (p : Nat) : (s.raise c v p).tkLen = s.tkLen := rfl
@[simp] theorem State.raise_tkFirst (s : State) (c : FaultCause) (v : Int) (p : Nat) : (s.raise c v p).tkFirst = s.tkFirst := rfl
@[simp] theorem State.raise_tkAcc (s : State) (c : FaultCause) (v : Int) (p : Nat) : (s.raise c v p).tkAcc = s.tkAcc := rfl
@[simp] theorem State.raise_phase (s : State) (c : FaultCause) (v : Int) (p : Nat) : (s.raise c v p).phase = .faulted := rfl
@[simp] theorem State.raise_faultCause (s : State) (c : FaultCause) (v : Int) (p : Nat) : (s.raise c v p).faultCause = c := rfl
@[simp] theorem State.raise_faultValue (s : State) (c : FaultCause) (v : Int) (p : Nat) : (s.raise c v p).faultValue = v := rfl
@[simp] theorem State.raise_faultPos (s : State) (c : FaultCause) (v : Int) (p : Nat) : (s.raise c v p).faultPos = p := rfl
@[simp] theorem State.raise_out (s : State) (c : FaultCause) (v : Int) (p : Nat) : (s.raise c v p).out = s.out := rfl
@[simp] theorem State.raise_pending (s : State) (c : FaultCause) (v : Int) (p : Nat) : (s.raise c v p).pending = s.pending := rfl

@[simp] theorem State.raise_reg (s : State) (c : FaultCause) (v : Int) (p : Nat) (k : Byte) : (s.raise c v p).reg k = s.reg k := rfl
@[simp] theorem State.raise_label (s : State) (c : FaultCause) (v : Int) (p : Nat) (k : Byte) : (s.raise c v p).label k = s.label k := rfl
@[simp] theorem State.raise_isLabelSet (s : State) (c : FaultCause) (v : Int) (p : Nat) (k : Byte) : (s.raise c v p).isLabelSet k = s.isLabelSet k := rfl

/-! ### State.appendByte -/

@[simp] theorem State.appendByte_cfg (s : State) (b : Byte) : (s.appendByte b).cfg = s.cfg := rfl
@[simp] theorem State.appendByte_regs (s : State) (b : Byte) : (s.appendByte b).regs = s.regs := rfl
@[simp] theorem State.appendByte_labels (s : State) (b : Byte) : (s.appendByte b).labels = s.labels := rfl
@[simp] theorem State.appendByte_labelSet (s : State) (b : Byte) : (s.appendByte b).labelSet = s.labelSet := rfl
@[simp] theorem State.appendByte_prog (s : State) (b : Byte) : (s.appendByte b).prog = s.prog.write s.progLen b := rfl
@[simp] theorem State.appendByte_progLen (s : State) (b : Byte) : (s.appendByte b).progLen = s.progLen + 1 := rfl
@[simp] theorem State.appendByte_pc (s : State) (b : Byte) : (s.appendByte b).pc = s.pc := rfl
@[simp] theorem State.appendByte_tkLen (s : State) (b : Byte) : (s.appendByte b).tkLen = s.tkLen := rfl
@[simp] theorem State.appendByte_tkFirst (s : State) (b : Byte) : (s.appendByte b).tkFirst = s.tkFirst := rfl
@[simp] theorem State.appendByte_tkAcc (s : State) (b : Byte) : (s.appendByte b).tkAcc = s.tkAcc := rfl
@[simp] theorem State.appendByte_phase (s : State) (b : Byte) : (s.appendByte b).phase = s.phase := rfl
@[simp] theorem State.appendByte_faultCause (s : State) (b : Byte) : (s.appendByte b).faultCause = s.faultCause := rfl
@[simp] theorem State.appendByte_faultValue (s : State) (b : Byte) : (s.appendByte b).faultValue = s.faultValue := rfl
@[simp] theorem State.appendByte_faultPos (s : State) (b : Byte) : (s.appendByte b).faultPos = s.faultPos := rfl
@[simp] theorem State.appendByte_out (s : State) (b : Byte) : (s.appendByte b).out = s.out := rfl
@[simp] theorem State.appendByte_pending (s : State) (b : Byte) : (s.appendByte b).pending = s.pending := rfl

@[simp] theorem State.appendByte_reg (s : State) (b : Byte) (k : Byte) : (s.appendByte b).reg k = s.reg k := rfl
@[simp] theorem State.appendByte_label (s : State) (b : Byte) (k : Byte) : (s.appendByte b).label k = s.label k := rfl
@[simp] theorem State.appendByte_isLabelSet (s : State) (b : Byte) (k : Byte) : (s.appendByte b).isLabelSet k = s.isLabelSet k := rfl

/-! ### State.clearToken -/

@[simp] theorem State.clearToken_cfg (s : State) : (s.clearToken).cfg = s.cfg := rfl
@[simp] theorem State.clearToken_regs (s : State) : (s.clearToken).regs = s.regs := rfl
@[simp] theorem State.clearToken_labels (s : State) : (s.clearToken).labels = s.labels := rfl
@[simp] theorem State.clearToken_labelSet (s : State) : (s.clearToken).labelSet = s.labelSet := rfl
@[simp] theorem State.clearToken_prog (s : State) : (s.clearToken).prog = s.prog := rfl
@[simp] theorem State.clearToken_progLen (s : State) : (s.clearToken).progLen = s.progLen := rfl
@[simp] theorem State.clearToken_pc (s : State) : (s.clearToken).pc = s.pc := rfl
@[simp] theorem State.clearToken_tkLen (s : State) : (s.clearToken).tkLen = 0 := rfl
@[simp] theorem State.clearToken_tkFirst (s : State) : (s.clearToken).tkFirst = 0 := rfl
@[simp] theorem State.clearToken_tkAcc (s : State) : (s.clearToken).tkAcc = 0 := rfl
@[simp] theorem State.clearToken_phase (s : State) : (s.clearToken).phase = s.phase := rfl
@[simp] theorem State.clearToken_faultCause (s : State) : (s.clearToken).faultCause = s.faultCause := rfl
@[simp] theorem State.clearToken_faultValue (s : State) : (s.clearToken).faultValue = s.faultValue := rfl
@[simp] theorem State.clearToken_faultPos (s : State) : (s.clearToken).faultPos = s.faultPos := rfl
@[simp] theorem State.clearToken_out (s : State) : (s.clearToken).out = s.out := rfl
@[simp] theorem State.clearToken_pending (s : State) : (s.clearToken).pending = s.pending := rfl

@[simp] theorem State.clearToken_reg (s : State) (k : Byte) : (s.clearToken).reg k = s.reg k := rfl
@[simp] theorem State.clearToken_label (s : State) (k : Byte) : (s.clearToken).label k = s.label k := rfl
@[simp] theorem State.clearToken_isLabelSet (s : State) (k : Byte) : (s.clearToken).isLabelSet k = s.isLabelSet k := rfl

/-! ### State.startExecution -/

@[simp] theorem State.startExecution_cfg (s : State) : (s.startExecution).cfg = s.cfg := rfl
@[simp] theorem State.startExecution_regs (s : State) : (s.startExecution).regs = s.regs := rfl
@[simp] theorem State.startExecution_labels (s : State) : (s.startExecution).labels = s.labels := rfl
@[simp] theorem State.startExecution_labelSet (s : State) : (s.startExecution).labelSet = s.labelSet := rfl
@[simp] theorem State.startExecution_prog (s : State) : (s.startExecution).prog = s.prog := rfl
@[simp] theorem State.startExecution_progLen (s : State) : (s.startExecution).progLen = s.progLen := rfl
@[simp] theorem State.startExecution_pc (s : State) : (s.startExecution).pc = 0 := rfl
@[simp] theorem State.startExecution_tkLen (s : State) : (s.startExecution).tkLen = s.tkLen := rfl
@[simp] theorem State.startExecution_tkFirst (s : State) : (s.startExecution).tkFirst = s.tkFirst := rfl
@[simp] theorem State.startExecution_tkAcc (s : State) : (s.startExecution).tkAcc = s.tkAcc := rfl
@[simp] theorem State.startExecution_phase (s : State) : (s.startExecution).phase = .execute := rfl
@[simp] theorem State.startExecution_faultCause (s : State) : (s.startExecution).faultCause = s.faultCause := rfl
@[simp] theorem State.startExecution_faultValue (s : State) : (s.startExecution).faultValue = s.faultValue := rfl
@[simp] theorem State.startExecution_faultPos (s : State) : (s.startExecution).faultPos = s.faultPos := rfl
@[simp] theorem State.startExecution_out (s : State) : (s.startExecution).out = s.out := rfl
@[simp] theorem State.startExecution_pending (s : State) : (s.startExecution).pending = s.pending := rfl

@[simp] theorem State.startExecution_reg (s : State) (k : Byte) : (s.startExecution).reg k = s.reg k := rfl
@[simp] theorem State.startExecution_label (s : State) (k : Byte) : (s.startExecution).label k = s.label k := rfl
@[simp] theorem State.startExecution_isLabelSet (s : State) (k : Byte) : (s.startExecution).isLabelSet k = s.isLabelSet k := rfl

/-! ### A change of the host's pending transfers alone -/

@[simp] theorem pending_reg (s : State) (p : List HostTransfer) (k : Byte) : State.reg { s with pending := p } k = s.reg k := rfl
@[simp] theorem pending_label (s : State) (p : List HostTransfer) (k : Byte) : State.label { s with pending := p } k = s.label k := rfl
@[simp] theorem pending_isLabelSet (s : State) (p : List HostTransfer) (k : Byte) : State.isLabelSet { s with pending := p } k = s.isLabelSet k := rfl

/-! ### Reading a register or a label after a write -/

theorem byte_toNat_ne {a b : Byte} (h : a ≠ b) : b.toNat ≠ a.toNat :=
  fun e => h (BitVec.eq_of_toNat_eq e.symm)

/-- A register reads back the value written to it, and every other register reads as before. -/
theorem State.setReg_reg (s : State) (r : Byte) (v : Int) (k : Byte) :
    (s.setReg r v).reg k = if k = r then v else s.reg k := by
  by_cases h : k = r
  · subst h; simp [State.reg]
  · simp [State.reg, h, Vector.getElem_set_ne _ _ (byte_toNat_ne h)]

@[simp] theorem State.setReg_reg_same (s : State) (r : Byte) (v : Int) : (s.setReg r v).reg r = v := by
  simp [State.setReg_reg]

theorem State.setReg_reg_other (s : State) (r : Byte) (v : Int) {k : Byte} (h : k ≠ r) :
    (s.setReg r v).reg k = s.reg k := by
  simp [State.setReg_reg, h]

/-- A label reads back the value written to it, and every other label reads as before (R220). -/
theorem State.setLabel_label (s : State) (j : Byte) (v : Nat) (k : Byte) :
    (s.setLabel j v).label k = if k = j then v else s.label k := by
  by_cases h : k = j
  · subst h; simp [State.label]
  · simp [State.label, h, Vector.getElem_set_ne _ _ (byte_toNat_ne h)]

/-- A label written is marked, and every other mark is as before (R220). -/
theorem State.setLabel_isLabelSet (s : State) (j : Byte) (v : Nat) (k : Byte) :
    (s.setLabel j v).isLabelSet k = if k = j then true else s.isLabelSet k := by
  by_cases h : k = j
  · subst h; simp [State.isLabelSet]
  · simp [State.isLabelSet, h, Vector.getElem_set_ne _ _ (byte_toNat_ne h)]

/-! ### The reset state -/

@[simp] theorem State.resetWith_reg (c : Config) (p : List HostTransfer) (k : Byte) : (State.resetWith c p).reg k = 0 := by
  simp [State.reg, State.resetWith]

@[simp] theorem State.resetWith_label (c : Config) (p : List HostTransfer) (k : Byte) : (State.resetWith c p).label k = 0 := by
  simp [State.label, State.resetWith]

@[simp] theorem State.resetWith_isLabelSet (c : Config) (p : List HostTransfer) (k : Byte) :
    (State.resetWith c p).isLabelSet k = false := by
  simp [State.isLabelSet, State.resetWith]

@[simp] theorem State.resetWith_cfg (c : Config) (p : List HostTransfer) : (State.resetWith c p).cfg = c := rfl
@[simp] theorem State.resetWith_prog (c : Config) (p : List HostTransfer) : (State.resetWith c p).prog = [] := rfl
@[simp] theorem State.resetWith_progLen (c : Config) (p : List HostTransfer) : (State.resetWith c p).progLen = 0 := rfl
@[simp] theorem State.resetWith_pc (c : Config) (p : List HostTransfer) : (State.resetWith c p).pc = 0 := rfl
@[simp] theorem State.resetWith_tkLen (c : Config) (p : List HostTransfer) : (State.resetWith c p).tkLen = 0 := rfl
@[simp] theorem State.resetWith_tkFirst (c : Config) (p : List HostTransfer) : (State.resetWith c p).tkFirst = 0 := rfl
@[simp] theorem State.resetWith_tkAcc (c : Config) (p : List HostTransfer) : (State.resetWith c p).tkAcc = 0 := rfl
@[simp] theorem State.resetWith_phase (c : Config) (p : List HostTransfer) : (State.resetWith c p).phase = .tokenize := rfl
@[simp] theorem State.resetWith_faultCause (c : Config) (p : List HostTransfer) : (State.resetWith c p).faultCause = .none := rfl
@[simp] theorem State.resetWith_faultValue (c : Config) (p : List HostTransfer) : (State.resetWith c p).faultValue = 0 := rfl
@[simp] theorem State.resetWith_faultPos (c : Config) (p : List HostTransfer) : (State.resetWith c p).faultPos = 0 := rfl
@[simp] theorem State.resetWith_out (c : Config) (p : List HostTransfer) : (State.resetWith c p).out = [] := rfl
@[simp] theorem State.resetWith_pending (c : Config) (p : List HostTransfer) : (State.resetWith c p).pending = p := rfl

end Sys2Proof.Machine
end

