-- ==== Sys2Proof/Laws/Arith.lean ====
section
/-! SUPPORT. Laws/Arith.lean: what range, wrap-around, immediates, index checks and decimal digits do. -/

namespace Sys2Proof.Machine

/-! ## Cells (R12, R23) -/

theorem two_pow_split {w : Nat} (h : 1 ≤ w) : (2 : Int) ^ w = 2 * 2 ^ (w - 1) := by
  obtain ⟨k, rfl⟩ : ∃ k, w = k + 1 := ⟨w - 1, by omega⟩
  simp [pow_succ, mul_comm]

/-- The wrapped value fits the cell. -/
theorem wrapCell_fits {w : Nat} (h : 1 ≤ w) (x : Int) : fitsCell w (wrapCell w x) := by
  have hs := two_pow_split h
  have hp : (0 : Int) < 2 ^ (w - 1) := by positivity
  have h0 := Int.emod_nonneg x (b := 2 ^ w) (by omega)
  have h1 := Int.emod_lt_of_pos x (b := 2 ^ w) (by omega)
  simp only [fitsCell, wrapCell]
  split <;> omega

/-- The wrapped value is congruent to the value (R23). -/
theorem wrapCell_dvd (w : Nat) (x : Int) : (2 ^ w : Int) ∣ x - wrapCell w x := by
  have h : x - x % 2 ^ w = 2 ^ w * (x / 2 ^ w) := by have := Int.mul_ediv_add_emod x (2 ^ w); omega
  simp only [wrapCell]
  split
  · exact ⟨x / 2 ^ w, h⟩
  · exact ⟨x / 2 ^ w + 1, by rw [mul_add, ← h]; ring⟩

/-- Two values of one cell that are congruent are equal: wrap_W(x) is unique (R23). -/
theorem fitsCell_unique {w : Nat} (h : 1 ≤ w) {x y : Int} (hx : fitsCell w x) (hy : fitsCell w y)
    (hd : (2 ^ w : Int) ∣ x - y) : x = y := by
  have hs := two_pow_split h
  obtain ⟨q, hq⟩ := hd
  obtain ⟨hx1, hx2⟩ := hx
  obtain ⟨hy1, hy2⟩ := hy
  rcases lt_trichotomy q 0 with hneg | rfl | hpos
  · have : (2 : Int) ^ w * q ≤ -(2 ^ w) := by nlinarith [pow_pos (by norm_num : (0 : Int) < 2) w]
    omega
  · omega
  · have : (2 : Int) ^ w ≤ 2 ^ w * q := by nlinarith [pow_pos (by norm_num : (0 : Int) < 2) w]
    omega

/-- A value that fits is its own wrapped value. -/
theorem wrapCell_of_fits {w : Nat} (h : 1 ≤ w) {x : Int} (hx : fitsCell w x) : wrapCell w x = x :=
  (fitsCell_unique h hx (wrapCell_fits h x) (wrapCell_dvd w x)).symm

/-- Congruent values wrap alike. -/
theorem wrapCell_congr {w : Nat} (h : 1 ≤ w) {x y : Int} (hd : (2 ^ w : Int) ∣ x - y) : wrapCell w x = wrapCell w y := by
  refine fitsCell_unique h (wrapCell_fits h x) (wrapCell_fits h y) ?_
  have e : wrapCell w x - wrapCell w y = (x - y) - (x - wrapCell w x) + (y - wrapCell w y) := by ring
  rw [e]
  exact dvd_add (dvd_sub hd (wrapCell_dvd w x)) (wrapCell_dvd w y)

/-! ## The sum (R173) -/

/-- A sum that fits is exact under either policy. -/
theorem addCells_of_fits {c : Config} {x y : Int} (h : fitsCell c.regW (x + y)) : addCells c x y = some (x + y) := by
  rw [addCells, if_pos h]

/-- Under WRAP the sum is the wrapped value, in or out of range. -/
theorem addCells_wrap {c : Config} (hw : 1 ≤ c.regW) (hc : c.addOverflow = .wrap) (x y : Int) :
    addCells c x y = some (wrapCell c.regW (x + y)) := by
  by_cases h : fitsCell c.regW (x + y)
  · rw [addCells_of_fits h, wrapCell_of_fits hw h]
  · rw [addCells, if_neg h, hc]

/-- AddOverflow is raised exactly under FAULT on a sum out of range. -/
theorem addCells_eq_none_iff {c : Config} {x y : Int} :
    addCells c x y = none ↔ c.addOverflow = .fault ∧ ¬ fitsCell c.regW (x + y) := by
  rw [addCells]
  by_cases h : fitsCell c.regW (x + y)
  · simp only [if_pos h]; simp [h]
  · rw [if_neg h]
    cases hc : c.addOverflow <;> simp [h]

/-- Whatever the policy, a sum that is stored fits the cell. -/
theorem addCells_fits {c : Config} (hw : 1 ≤ c.regW) {x y v : Int} (h : addCells c x y = some v) : fitsCell c.regW v := by
  by_cases hf : fitsCell c.regW (x + y)
  · rw [addCells_of_fits hf] at h; cases h; exact hf
  · cases hc : c.addOverflow
    · rw [addCells_wrap hw hc] at h; cases h; exact wrapCell_fits hw _
    · rw [addCells_eq_none_iff.2 ⟨hc, hf⟩] at h; cases h

/-- Whatever the policy, a sum that is stored is congruent to the exact sum. -/
theorem addCells_dvd {c : Config} {x y v : Int} (h : addCells c x y = some v) : (2 ^ c.regW : Int) ∣ (x + y) - v := by
  rw [addCells] at h
  split at h
  · cases h; simp
  · split at h
    · cases h; exact wrapCell_dvd _ _
    · cases h

/-! ## Immediates (R171) -/

theorem immValue_zero {c : Config} (h : c.immExt = .zero) (b : Byte) : immValue c b = b.toNat := by
  simp [immValue, h]

theorem immValue_sign {c : Config} (h : c.immExt = .sign) (b : Byte) :
    immValue c b = if b.toNat < 128 then (b.toNat : Int) else b.toNat - 256 := by
  simp only [immValue, h, BitVec.toInt]
  split <;> split <;> omega

theorem immValue_range (c : Config) (b : Byte) : -128 ≤ immValue c b ∧ immValue c b ≤ 255 := by
  have := b.isLt
  cases h : c.immExt
  · rw [immValue_zero h]; omega
  · rw [immValue_sign h]; split <;> omega

theorem two_pow_ge_256 {w : Nat} (h : 9 ≤ w) : (256 : Int) ≤ 2 ^ (w - 1) := by
  calc (256 : Int) = 2 ^ 8 := by norm_num
    _ ≤ 2 ^ (w - 1) := pow_le_pow_right₀ (by norm_num) (by omega)

/-- Every immediate fits a register: REG_W is at least 9 (R12). -/
theorem immValue_fits {c : Config} (h : 9 ≤ c.regW) (b : Byte) : fitsCell c.regW (immValue c b) := by
  have := immValue_range c b
  have := two_pow_ge_256 h
  constructor <;> omega

theorem fitsCell_zero (w : Nat) : fitsCell w 0 := by
  have : (0 : Int) < 2 ^ (w - 1) := by positivity
  constructor <;> omega

/-! ## Index checks (R222, R34) -/

theorem regIndex_eq_some_iff {v : Int} {hi n : Nat} : regIndex v hi = some n ↔ v = n ∧ n ≤ hi := by
  rw [regIndex]
  split <;> simp <;> omega

theorem regIndex_eq_none_iff {v : Int} {hi : Nat} : regIndex v hi = none ↔ ¬ (0 ≤ v ∧ v ≤ hi) := by
  rw [regIndex]
  split <;> simp <;> omega

theorem labelIndex_eq_some_iff {v : Int} {j : Byte} : labelIndex v = some j ↔ v = j.toNat := by
  have hj := j.isLt
  constructor
  · intro h
    obtain ⟨n, hn, rfl⟩ := Option.map_eq_some_iff.1 h
    obtain ⟨rfl, hle⟩ := regIndex_eq_some_iff.1 hn
    rw [BitVec.toNat_ofNat, Nat.mod_eq_of_lt (by omega)]
  · rintro rfl
    rw [labelIndex, regIndex_eq_some_iff.2 ⟨rfl, by omega⟩]
    simp

theorem labelIndex_eq_none_iff {v : Int} : labelIndex v = none ↔ ¬ (0 ≤ v ∧ v ≤ 255) := by
  rw [labelIndex, Option.map_eq_none_iff, regIndex_eq_none_iff]
  simp

/-! ## Labels looked up (R221) -/

theorem lookupLabel_eq_some {s : State} {j : Byte} (h : s.cfg.unsetLabelPolicy = .zero ∨ s.isLabelSet j = true) :
    lookupLabel s j = some (s.label j) := by
  rw [lookupLabel]
  cases hp : s.cfg.unsetLabelPolicy
  · rfl
  · simp [hp] at h; simp [h]

theorem lookupLabel_eq_none_iff {s : State} {j : Byte} :
    lookupLabel s j = none ↔ s.cfg.unsetLabelPolicy = .fault ∧ s.isLabelSet j = false := by
  rw [lookupLabel]
  cases hp : s.cfg.unsetLabelPolicy <;> simp

theorem lookupLabel_value {s : State} {j : Byte} {n : Nat} (h : lookupLabel s j = some n) : n = s.label j := by
  rw [lookupLabel] at h
  split at h
  · cases h; rfl
  · split at h <;> cases h; rfl

/-! ## Decimal digits (R202) -/

theorem digitsOnto_zero (fuel : Nat) (tail : List Byte) : digitsOnto fuel 0 tail = tail := by
  cases fuel <;> simp [digitsOnto]

theorem digitsOnto_step {fuel n : Nat} (h : n ≠ 0) (tail : List Byte) :
    digitsOnto (fuel + 1) n tail = digitsOnto fuel (n / 10) (BitVec.ofNat 8 (0x30 + n % 10) :: tail) := by
  simp [digitsOnto, h]

theorem digit_toNat (n : Nat) : (BitVec.ofNat 8 (0x30 + n % 10)).toNat = 0x30 + n % 10 := by
  rw [BitVec.toNat_ofNat, Nat.mod_eq_of_lt (by omega)]

/-- The digits stand before the tail whatever it is. -/
theorem digitsOnto_append (fuel n : Nat) (tail : List Byte) : digitsOnto fuel n tail = digitsOnto fuel n [] ++ tail := by
  induction fuel generalizing n tail with
  | zero => rfl
  | succ fuel ih =>
    by_cases h : n = 0
    · subst h; simp [digitsOnto_zero]
    · rw [digitsOnto_step h, digitsOnto_step h, ih, ih (n / 10) [_]]; simp

theorem readDigits_append (acc : Nat) (xs ys : List Byte) :
    readDigits acc (xs ++ ys) = readDigits (readDigits acc xs) ys := by
  induction xs generalizing acc with
  | nil => rfl
  | cons d xs ih => exact ih _

end Sys2Proof.Machine
end

