-- ==== Sys2Proof/Laws/Decode.lean ====
section
/-! SUPPORT. Laws/Decode.lean: the small lemmas of the opcode map and of assemble. -/

namespace Sys2Proof

/-- No two rows of the opcode map have one code. -/
theorem opcodeMap_codes_distinct : opcodeMap.Pairwise fun a b => a.code ≠ b.code := by decide

@[simp] theorem Instr.operands_length (i : Instr) : i.operands.length = i.arity := by cases i <;> rfl

/-- The opcode map gives every instruction's arity (R124). -/
@[simp] theorem arity?_opcode (i : Instr) : arity? i.opcode = some i.arity := by cases i <;> rfl

/-- An instruction is assembled from its own opcode and operands (R124). -/
@[simp] theorem assemble_opcode_operands (i : Instr) : assemble i.opcode i.operands = some i := by cases i <;> rfl

/-- Assembling inverts: the opcode byte and the operands are the instruction's own. -/
theorem assemble_eq_some {op : Byte} {bs : List Byte} {i : Instr} (h : assemble op bs = some i) :
    op = i.opcode ∧ bs = i.operands := by
  have key : ∀ n : Nat, ∀ hn : n < 256, op.toNat = n → op = BitVec.ofNat 8 n := fun n hn e =>
    BitVec.eq_of_toNat_eq (by rw [e, BitVec.toNat_ofNat, Nat.mod_eq_of_lt hn])
  unfold assemble at h
  split at h <;> first
    | (cases h; done)
    | (cases h
       refine ⟨?_, rfl⟩
       first
         | exact key 0 (by decide) ‹_› | exact key 1 (by decide) ‹_› | exact key 2 (by decide) ‹_›
         | exact key 10 (by decide) ‹_› | exact key 11 (by decide) ‹_› | exact key 20 (by decide) ‹_›
         | exact key 21 (by decide) ‹_› | exact key 40 (by decide) ‹_› | exact key 41 (by decide) ‹_›
         | exact key 42 (by decide) ‹_› | exact key 43 (by decide) ‹_› | exact key 44 (by decide) ‹_›)

/-- The codes of the opcode map (R124). -/
def listedCodes : List Nat := [0, 1, 2, 10, 11, 20, 21, 40, 41, 42, 43, 44]

/-- A byte has an arity exactly when its code is listed (R125). -/
theorem arity?_eq_none_iff (op : Byte) : arity? op = none ↔ op.toNat ∉ listedCodes := by
  revert op; decide

/-- A listed opcode with exactly its arity of bytes after it is an instruction. -/
theorem assemble_of_arity {op : Byte} {a : Nat} {bs : List Byte} (h : arity? op = some a) (hl : bs.length = a) :
    ∃ i, assemble op bs = some i := by
  have hm : op.toNat ∈ listedCodes := by
    by_contra hn
    rw [(arity?_eq_none_iff op).2 hn] at h
    cases h
  have hop : op = BitVec.ofNat 8 op.toNat := by simp
  simp only [listedCodes, List.mem_cons, List.not_mem_nil, or_false] at hm
  rcases hm with e | e | e | e | e | e | e | e | e | e | e | e <;> rw [e] at hop <;> subst hop <;>
    (cases h; rcases bs with _ | ⟨x, _ | ⟨y, _ | ⟨z, _ | ⟨w, ws⟩⟩⟩⟩ <;>
      first | exact ⟨_, rfl⟩ | simp at hl)

end Sys2Proof
end

