-- ==== Sys2Proof/Laws/Memory.lean ====
section
/-! SUPPORT. Laws/Memory.lean: the program store's canonical form is kept, and a read after a write. -/

namespace Sys2Proof.Machine

@[simp] theorem Memory.read_nil (a : Nat) : Memory.read [] a = none := rfl

theorem Memory.read_cons (c : Host.Cell) (m : Memory) (a : Nat) :
    Memory.read (c :: m) a = if c.1 = a then some c.2 else Memory.read m a := rfl

/-- The canonical form of a list with a head: the head lies below every index of a canonical tail. -/
theorem Memory.wf_cons_cons (c d : Host.Cell) (m : Memory) :
    Memory.wf (c :: d :: m) = true ↔ c.1 < d.1 ∧ Memory.wf (d :: m) = true := by
  simp [Memory.wf]

theorem Memory.wf_tail {c : Host.Cell} {m : Memory} (h : Memory.wf (c :: m) = true) : Memory.wf m = true := by
  cases m with
  | nil => rfl
  | cons d m => exact ((Memory.wf_cons_cons c d m).1 h).2

/-- In canonical form nothing is listed at or below the head but the head. -/
theorem Memory.read_below_head {c : Host.Cell} {m : Memory} (h : Memory.wf (c :: m) = true) {a : Nat} (ha : a ≤ c.1) :
    Memory.read m a = none := by
  induction m generalizing c with
  | nil => rfl
  | cons d m ih =>
    obtain ⟨hcd, hd⟩ := (Memory.wf_cons_cons c d m).1 h
    rw [Memory.read_cons, if_neg (by omega)]
    exact ih hd (by omega)

/-- The head after a write is the old head or the index written. -/
theorem Memory.write_head (m : Memory) (a : Nat) (b : Byte) :
    ∃ c rest, m.write a b = c :: rest ∧ (c.1 = a ∨ ∃ d ds, m = d :: ds ∧ c.1 = d.1) := by
  cases m with
  | nil => exact ⟨(a, b), [], rfl, .inl rfl⟩
  | cons d ds =>
    simp only [Memory.write]
    split
    · exact ⟨_, _, rfl, .inl rfl⟩
    · split
      · exact ⟨_, _, rfl, .inl rfl⟩
      · exact ⟨_, _, rfl, .inr ⟨d, ds, rfl, rfl⟩⟩

/-- A write keeps the canonical form. -/
theorem Memory.write_wf (m : Memory) (a : Nat) (b : Byte) (h : m.wf = true) : (m.write a b).wf = true := by
  induction m with
  | nil => rfl
  | cons c m ih =>
    simp only [Memory.write]
    split
    · next hlt => exact (Memory.wf_cons_cons _ _ _).2 ⟨hlt, h⟩
    · split
      · next hge heq =>
        cases m with
        | nil => rfl
        | cons d m =>
          obtain ⟨hcd, hd⟩ := (Memory.wf_cons_cons c d m).1 h
          exact (Memory.wf_cons_cons _ _ _).2 ⟨by simpa [heq] using hcd, hd⟩
      · next hge hne =>
        obtain ⟨e, rest, he, hcase⟩ := Memory.write_head m a b
        have htail := ih (Memory.wf_tail h)
        rw [he] at htail ⊢
        refine (Memory.wf_cons_cons _ _ _).2 ⟨?_, htail⟩
        rcases hcase with heq | ⟨d, ds, rfl, heq⟩
        · omega
        · have := ((Memory.wf_cons_cons c d ds).1 h).1
          omega

/-- A write makes its index read the byte written and leaves every other index alone. -/
theorem Memory.read_write (m : Memory) (a : Nat) (b : Byte) (k : Nat) :
    (m.write a b).read k = if k = a then some b else m.read k := by
  induction m with
  | nil => simp [Memory.write, Memory.read_cons, eq_comm]
  | cons c m ih =>
    by_cases hlt : a < c.1
    · rw [Memory.write, if_pos hlt, Memory.read_cons]
      exact if_congr eq_comm rfl rfl
    · by_cases heq : a = c.1
      · rw [Memory.write, if_neg hlt, if_pos heq, Memory.read_cons, Memory.read_cons, ← heq]
        by_cases hk : k = a
        · simp [hk]
        · simp [hk, Ne.symm hk]
      · rw [Memory.write, if_neg hlt, if_neg heq, Memory.read_cons, Memory.read_cons, ih]
        by_cases hk : k = a
        · simp [hk, Ne.symm heq]
        · simp [hk]

@[simp] theorem Memory.read_write_same (m : Memory) (a : Nat) (b : Byte) : (m.write a b).read a = some b := by
  simp [Memory.read_write]

theorem Memory.writeBytes_wf (m : Memory) (a : Nat) (bs : List Byte) (h : m.wf = true) :
    (m.writeBytes a bs).wf = true := by
  induction bs generalizing m a with
  | nil => exact h
  | cons b bs ih => exact ih _ _ (Memory.write_wf m a b h)

/-- The program store is in canonical form at reset. -/
theorem State.reset_prog_wf : State.reset.prog.wf = true := rfl

/-- The tokenizer's append keeps the canonical form. -/
theorem State.appendByte_prog_wf (s : State) (b : Byte) (h : s.prog.wf = true) : (s.appendByte b).prog.wf = true :=
  Memory.write_wf s.prog s.progLen b h

/-- Placing a program keeps the canonical form. -/
theorem State.placeCode_prog_wf (s : State) (bs : List Byte) (h : s.prog.wf = true) : (s.placeCode bs).prog.wf = true :=
  Memory.writeBytes_wf s.prog s.pc bs h

/-- Bytes written in a row read as written, and every other index as before. -/
theorem Memory.read_writeBytes (m : Memory) (a : Nat) (bs : List Byte) (k : Nat) :
    (m.writeBytes a bs).read k = if a ≤ k ∧ k < a + bs.length then bs[k - a]? else m.read k := by
  induction bs generalizing m a with
  | nil => rw [Memory.writeBytes, if_neg (by simp)]
  | cons b bs ih =>
    rw [Memory.writeBytes, ih, Memory.read_write, List.length_cons]
    by_cases hk : k = a
    · subst hk; simp
    · by_cases hin : a + 1 ≤ k ∧ k < a + 1 + bs.length
      · rw [if_pos hin, if_pos (by omega), show k - a = (k - (a + 1)) + 1 by omega, List.getElem?_cons_succ]
      · rw [if_neg hin, if_neg hk, if_neg (by omega)]

/-- Two stores in canonical form that read alike are the same data. -/
theorem Memory.ext_of_read {m n : Memory} (hm : m.wf = true) (hn : n.wf = true) (h : ∀ k, m.read k = n.read k) :
    m = n := by
  induction m generalizing n with
  | nil =>
    cases n with
    | nil => rfl
    | cons d n => have := h d.1; simp [Memory.read_cons] at this
  | cons c m ih =>
    cases n with
    | nil => have := h c.1; simp [Memory.read_cons] at this
    | cons d n =>
      have heads : c.1 = d.1 := by
        by_contra hne
        rcases Nat.lt_or_gt_of_ne hne with hlt | hlt
        · have := h c.1
          rw [Memory.read_cons, if_pos rfl, Memory.read_cons, if_neg (by omega),
            Memory.read_below_head hn (by omega)] at this
          exact absurd this (by simp)
        · have := h d.1
          rw [Memory.read_cons, if_neg (by omega), Memory.read_below_head hm (by omega), Memory.read_cons,
            if_pos rfl] at this
          exact absurd this (by simp)
      have values : c.2 = d.2 := by simpa [Memory.read_cons, heads] using h c.1
      have tails : m = n := ih (Memory.wf_tail hm) (Memory.wf_tail hn) fun k => by
        by_cases hk : k ≤ c.1
        · rw [Memory.read_below_head hm hk, Memory.read_below_head hn (by omega)]
        · have := h k
          rwa [Memory.read_cons, if_neg (by omega), Memory.read_cons, if_neg (by omega)] at this
      rw [tails, Prod.ext heads values]

/-! ## Reading a run of bytes -/

@[simp] theorem Memory.readBytes_zero (m : Memory) (a : Nat) : m.readBytes a 0 = some [] := rfl

theorem Memory.readBytes_succ (m : Memory) (a n : Nat) :
    m.readBytes a (n + 1) = (m.read a).bind fun b => (m.readBytes (a + 1) n).map (b :: ·) := by
  simp only [Memory.readBytes]
  cases m.read a <;> rfl

theorem Memory.readBytes_length {m : Memory} {a n : Nat} {bs : List Byte} (h : m.readBytes a n = some bs) :
    bs.length = n := by
  induction n generalizing a bs with
  | zero => simp at h; simp [← h]
  | succ n ih =>
    rw [Memory.readBytes_succ] at h
    cases hb : m.read a with
    | none => simp [hb] at h
    | some b =>
      cases hr : m.readBytes (a + 1) n with
      | none => simp [hb, hr] at h
      | some cs => simp [hb, hr] at h; simp [← h, ih hr]

/-- A run of listed bytes can be read. -/
theorem Memory.readBytes_isSome {m : Memory} {a n : Nat} (h : ∀ k, a ≤ k → k < a + n → (m.read k).isSome = true) :
    ∃ bs, m.readBytes a n = some bs := by
  induction n generalizing a with
  | zero => exact ⟨[], rfl⟩
  | succ n ih =>
    obtain ⟨b, hb⟩ := Option.isSome_iff_exists.1 (h a (by omega) (by omega))
    obtain ⟨bs, hbs⟩ := ih (a := a + 1) fun k h1 h2 => h k (by omega) (by omega)
    exact ⟨b :: bs, by simp [Memory.readBytes_succ, hb, hbs]⟩

/-- Stores that read alike read the same runs of bytes. -/
theorem Memory.readBytes_congr {m n : Memory} (h : ∀ k, m.read k = n.read k) (a c : Nat) :
    m.readBytes a c = n.readBytes a c := by
  induction c generalizing a with
  | zero => rfl
  | succ c ih => rw [Memory.readBytes_succ, Memory.readBytes_succ, h, ih]

end Sys2Proof.Machine
end

