-- ==== Sys2Proof/Laws/Exec.lean ====
section
/-! SUPPORT. Laws/Exec.lean: what each shared operation leaves alone, and everything an instruction can do, said once. -/

namespace Sys2Proof.Machine

/-! ## What stays the same under each update -/

theorem SameAround.refl (s : State) : SameAround s s :=
  ⟨⟨rfl, fun _ => rfl⟩, ⟨rfl, rfl, rfl⟩, rfl, rfl⟩

theorem SameAround.trans {s t u : State} (h : SameAround s t) (k : SameAround t u) : SameAround s u :=
  ⟨⟨k.1.1.trans h.1.1, fun n => (k.1.2 n).trans (h.1.2 n)⟩,
    ⟨k.2.1.1.trans h.2.1.1, k.2.1.2.1.trans h.2.1.2.1, k.2.1.2.2.trans h.2.1.2.2⟩,
    k.2.2.1.trans h.2.2.1, k.2.2.2.trans h.2.2.2⟩

/-- `raise` is FaultedFrom: it changes PHASE and the fault registers and nothing else (R310). -/
theorem State.raise_faultedFrom (s : State) (c : FaultCause) (v : Int) (p : Nat) :
    FaultedFrom s (s.raise c v p) c v p :=
  ⟨rfl, rfl, rfl, rfl, rfl, rfl, fun _ => rfl, fun _ => ⟨rfl, rfl⟩, ⟨rfl, fun _ => rfl⟩, ⟨rfl, rfl, rfl⟩, rfl, rfl⟩

/-- A register write with its advance. -/
theorem storeValue_spec (rd : Byte) (v : Int) (s : State) :
    (storeValue rd v s).reg rd = v ∧ SameRegsBut rd s (storeValue rd v s) ∧ SameLabels s (storeValue rd v s) ∧
      (storeValue rd v s).out = s.out ∧ (storeValue rd v s).pc = s.pc + 3 ∧ SameRunning s (storeValue rd v s) :=
  ⟨by simp [storeValue], fun r h => by simp [storeValue, State.setReg_reg_other _ _ _ h], fun _ => ⟨rfl, rfl⟩,
    rfl, rfl, ⟨⟨rfl, fun _ => rfl⟩, ⟨rfl, rfl, rfl⟩, rfl, rfl⟩, rfl, rfl, rfl, rfl⟩

/-- An addition stores the sum, or raises AddOverflow. -/
theorem addValue_cases (rd : Byte) (y : Int) (s : State) :
    (∃ v, addCells s.cfg (s.reg rd) y = some v ∧ addValue rd y s = storeValue rd v s) ∨
      (addCells s.cfg (s.reg rd) y = none ∧ addValue rd y s = s.raise .addOverflow rd.toNat s.pc) := by
  cases h : addCells s.cfg (s.reg rd) y with
  | some v => exact .inl ⟨v, rfl, by simp [addValue, h]⟩
  | none => exact .inr ⟨rfl, by simp [addValue, h]⟩

/-- A printed line. -/
theorem printLine_spec (text : List Byte) (s : State) :
    (printLine text s).out = s.out ++ text ++ [s.cfg.newline] ∧ SameRegs s (printLine text s) ∧
      SameLabels s (printLine text s) ∧ (printLine text s).pc = s.pc + 2 ∧ SameRunning s (printLine text s) :=
  ⟨by simp [printLine], fun _ => rfl, fun _ => ⟨rfl, rfl⟩, rfl,
    ⟨⟨rfl, fun _ => rfl⟩, ⟨rfl, rfl, rfl⟩, rfl, rfl⟩, rfl, rfl, rfl, rfl⟩

/-- A label write with its advance. -/
theorem labelSetTo_spec (j : Byte) (v : Nat) (s : State) :
    (labelSetTo j v s).label j = v ∧ (labelSetTo j v s).isLabelSet j = true ∧ SameLabelsBut j s (labelSetTo j v s) ∧
      SameRegs s (labelSetTo j v s) ∧ (labelSetTo j v s).out = s.out ∧ (labelSetTo j v s).pc = s.pc + 2 ∧
      SameRunning s (labelSetTo j v s) :=
  ⟨by simp [labelSetTo, State.setLabel_label], by simp [labelSetTo, State.setLabel_isLabelSet],
    fun k h => by simp [labelSetTo, State.setLabel_label, State.setLabel_isLabelSet, h], fun _ => rfl, rfl, rfl,
    ⟨⟨rfl, fun _ => rfl⟩, ⟨rfl, rfl, rfl⟩, rfl, rfl⟩, rfl, rfl, rfl, rfl⟩

/-- A jump of the pc. -/
theorem State.jump_spec (s : State) (n : Nat) :
    (s.jump n).pc = n ∧ SameRegs s (s.jump n) ∧ SameLabels s (s.jump n) ∧ (s.jump n).out = s.out ∧
      SameRunning s (s.jump n) :=
  ⟨rfl, fun _ => rfl, fun _ => ⟨rfl, rfl⟩, rfl, ⟨⟨rfl, fun _ => rfl⟩, ⟨rfl, rfl, rfl⟩, rfl, rfl⟩, rfl, rfl, rfl, rfl⟩

/-- A jump through a label goes to its value, or raises UnsetLabel. -/
theorem jumpThrough_cases (j : Byte) (s : State) :
    (jumpThrough j s = s.jump (s.label j) ∧ (s.cfg.unsetLabelPolicy = .zero ∨ s.isLabelSet j = true)) ∨
      (jumpThrough j s = s.raise .unsetLabel j.toNat s.pc ∧ s.cfg.unsetLabelPolicy = .fault ∧ s.isLabelSet j = false) := by
  cases h : lookupLabel s j with
  | some n =>
    refine .inl ⟨by simp [jumpThrough, h, lookupLabel_value h], ?_⟩
    by_contra hc
    rw [not_or] at hc
    have : s.cfg.unsetLabelPolicy = .fault := by cases hp : s.cfg.unsetLabelPolicy <;> simp_all
    rw [lookupLabel_eq_none_iff.2 ⟨this, by simpa using hc.2⟩] at h
    cases h
  | none => exact .inr ⟨by simp [jumpThrough, h], lookupLabel_eq_none_iff.1 h⟩

/-! ## The registers an instruction writes and the labels it may write -/

/-- The one register an instruction may write (R33). -/
def destination? : Instr → Option Byte
  | .halt => none
  | .storeImm _ rd => some rd
  | .storeReg _ rd => some rd
  | .addImm _ rd => some rd
  | .addReg _ rd => some rd
  | .printReg _ => none
  | .printChar _ => none
  | .labelsetReg _ => none
  | .labelsetImm _ => none
  | .jumpReg _ => none
  | .jumpImm _ => none
  | .jumptrue _ _ _ => none

/-- Why an instruction faults at state `s`: the cause and value its own rule gives. -/
def OwnFault (i : Instr) (s : State) (c : FaultCause) (v : Int) : Prop :=
  (∃ src rd, (i = .addImm src rd ∨ i = .addReg src rd) ∧ c = .addOverflow ∧ v = rd.toNat ∧
    s.cfg.addOverflow = .fault) ∨
  (∃ r, i = .labelsetReg r ∧ c = .indexBoundsError ∧ v = s.reg r ∧
    (s.cfg.labelsetRegMode = .indexFromReg ∧ ¬ (0 ≤ s.reg r ∧ s.reg r ≤ 255) ∨
      s.cfg.labelsetRegMode = .valueFromReg ∧ ¬ (0 ≤ s.reg r ∧ s.reg r ≤ s.cfg.progMax))) ∨
  (∃ r, i = .labelsetReg r ∧ c = .unsupportedOpcode ∧ v = 40 ∧ s.cfg.labelsetRegMode = .unsupported) ∨
  (∃ r, i = .jumpReg r ∧ c = .indexBoundsError ∧ v = s.reg r ∧ ¬ (0 ≤ s.reg r ∧ s.reg r ≤ 255)) ∨
  (∃ r, ∃ j : Byte, i = .jumpReg r ∧ s.reg r = j.toNat ∧ c = .unsetLabel ∧ v = j.toNat ∧
    s.cfg.unsetLabelPolicy = .fault ∧ s.isLabelSet j = false) ∨
  (∃ j, i = .jumpImm j ∧ c = .unsetLabel ∧ v = j.toNat ∧ s.cfg.unsetLabelPolicy = .fault ∧ s.isLabelSet j = false) ∨
  (∃ a b d, i = .jumptrue a b d ∧ c = .unsupportedOpcode ∧ v = 44)

theorem OwnFault.cause_ne_none {i : Instr} {s : State} {c : FaultCause} {v : Int} (h : OwnFault i s c v) : c ≠ .none := by
  rcases h with ⟨_, _, _, rfl, _⟩ | ⟨_, _, rfl, _⟩ | ⟨_, _, rfl, _⟩ | ⟨_, _, rfl, _⟩ | ⟨_, _, _, _, rfl, _⟩ | ⟨_, _, rfl, _⟩ |
    ⟨_, _, _, _, rfl, _⟩ <;> simp

/-- EVERYTHING AN INSTRUCTION CAN DO. It answers a next state, which is one of: the halted state; its destination
written with a value (for the additions, the sum of R173) and pc moved by 3; a non-empty line printed and pc moved by 2;
one label set and pc moved by 2; pc set to a label; one of its own faults raised. -/
theorem exec_cases (i : Instr) (s : State) : ∃ t, exec i s = .next t ∧
    ((i = .halt ∧ t = s.halt) ∨
     (∃ rd v, destination? i = some rd ∧ t = storeValue rd v s ∧
       ((∃ b, i = .storeImm b rd ∧ v = immValue s.cfg b) ∨ (∃ r, i = .storeReg r rd ∧ v = s.reg r) ∨
        (∃ b, i = .addImm b rd ∧ addCells s.cfg (s.reg rd) (immValue s.cfg b) = some v) ∨
        (∃ r, i = .addReg r rd ∧ addCells s.cfg (s.reg rd) (s.reg r) = some v))) ∨
     (∃ text, t = printLine text s ∧
       ((∃ r, i = .printReg r ∧ text = decimal (s.reg r)) ∨ (∃ c, i = .printChar c ∧ text = [c]))) ∨
     (∃ j v, t = labelSetTo j v s ∧
       ((i = .labelsetImm j ∧ v = s.pc + 2) ∨
        (∃ r, i = .labelsetReg r ∧ s.cfg.labelsetRegMode = .indexFromReg ∧ s.reg r = j.toNat ∧ v = s.pc + 2) ∨
        (i = .labelsetReg j ∧ s.cfg.labelsetRegMode = .valueFromReg ∧ s.reg j = v ∧ v ≤ s.cfg.progMax))) ∨
     (∃ j, t = s.jump (s.label j) ∧ (s.cfg.unsetLabelPolicy = .zero ∨ s.isLabelSet j = true) ∧
       (i = .jumpImm j ∨ ∃ r, i = .jumpReg r ∧ s.reg r = j.toNat)) ∨
     (∃ c v, t = s.raise c v s.pc ∧ OwnFault i s c v)) := by
  cases i with
  | halt => exact ⟨_, rfl, .inl ⟨rfl, rfl⟩⟩
  | storeImm b rd => exact ⟨_, rfl, .inr (.inl ⟨rd, _, rfl, rfl, .inl ⟨b, rfl, rfl⟩⟩)⟩
  | storeReg r rd => exact ⟨_, rfl, .inr (.inl ⟨rd, _, rfl, rfl, .inr (.inl ⟨r, rfl, rfl⟩)⟩)⟩
  | addImm b rd =>
    refine ⟨_, rfl, ?_⟩
    rcases addValue_cases rd (immValue s.cfg b) s with ⟨v, hv, ht⟩ | ⟨hn, ht⟩
    · exact .inr (.inl ⟨rd, v, rfl, ht, .inr (.inr (.inl ⟨b, rfl, hv⟩))⟩)
    · exact .inr (.inr (.inr (.inr (.inr ⟨_, _, ht,
        .inl ⟨b, rd, .inl rfl, rfl, rfl, (addCells_eq_none_iff.1 hn).1⟩⟩))))
  | addReg r rd =>
    refine ⟨_, rfl, ?_⟩
    rcases addValue_cases rd (s.reg r) s with ⟨v, hv, ht⟩ | ⟨hn, ht⟩
    · exact .inr (.inl ⟨rd, v, rfl, ht, .inr (.inr (.inr ⟨r, rfl, hv⟩))⟩)
    · exact .inr (.inr (.inr (.inr (.inr ⟨_, _, ht,
        .inl ⟨r, rd, .inr rfl, rfl, rfl, (addCells_eq_none_iff.1 hn).1⟩⟩))))
  | printReg r => exact ⟨_, rfl, .inr (.inr (.inl ⟨_, rfl, .inl ⟨r, rfl, rfl⟩⟩))⟩
  | printChar c => exact ⟨_, rfl, .inr (.inr (.inl ⟨_, rfl, .inr ⟨c, rfl, rfl⟩⟩))⟩
  | labelsetReg r =>
    cases hm : s.cfg.labelsetRegMode with
    | indexFromReg =>
      cases hj : labelIndex (s.reg r) with
      | some j =>
        exact ⟨_, by simp only [exec, execLabelsetReg, hm, hj], .inr (.inr (.inr (.inl ⟨j, _, rfl,
          .inr (.inl ⟨r, rfl, rfl, labelIndex_eq_some_iff.1 hj, rfl⟩)⟩)))⟩
      | none =>
        exact ⟨_, by simp only [exec, execLabelsetReg, hm, hj], .inr (.inr (.inr (.inr (.inr ⟨_, _, rfl,
          .inr (.inl ⟨r, rfl, rfl, rfl, .inl ⟨hm, labelIndex_eq_none_iff.1 hj⟩⟩)⟩))))⟩
    | valueFromReg =>
      cases hj : regIndex (s.reg r) s.cfg.progMax with
      | some v =>
        exact ⟨_, by simp only [exec, execLabelsetReg, hm, hj], .inr (.inr (.inr (.inl ⟨r, v, rfl,
          .inr (.inr ⟨rfl, rfl, (regIndex_eq_some_iff.1 hj).1, (regIndex_eq_some_iff.1 hj).2⟩)⟩)))⟩
      | none =>
        exact ⟨_, by simp only [exec, execLabelsetReg, hm, hj], .inr (.inr (.inr (.inr (.inr ⟨_, _, rfl,
          .inr (.inl ⟨r, rfl, rfl, rfl, .inr ⟨hm, regIndex_eq_none_iff.1 hj⟩⟩)⟩))))⟩
    | unsupported =>
      exact ⟨_, by simp only [exec, execLabelsetReg, hm]; rfl, .inr (.inr (.inr (.inr (.inr ⟨_, _, rfl,
        .inr (.inr (.inl ⟨r, rfl, rfl, rfl, hm⟩))⟩))))⟩
  | labelsetImm j => exact ⟨_, rfl, .inr (.inr (.inr (.inl ⟨j, _, rfl, .inl ⟨rfl, rfl⟩⟩)))⟩
  | jumpReg r =>
    cases hj : labelIndex (s.reg r) with
    | some j =>
      refine ⟨jumpThrough j s, by simp only [exec, execJumpReg, hj], ?_⟩
      rcases jumpThrough_cases j s with ⟨ht, hp⟩ | ⟨ht, hp, hs⟩
      · exact .inr (.inr (.inr (.inr (.inl ⟨j, ht, hp, .inr ⟨r, rfl, labelIndex_eq_some_iff.1 hj⟩⟩))))
      · exact .inr (.inr (.inr (.inr (.inr ⟨_, _, ht,
          .inr (.inr (.inr (.inr (.inl ⟨r, j, rfl, labelIndex_eq_some_iff.1 hj, rfl, rfl, hp, hs⟩))))⟩))))
    | none =>
      exact ⟨_, by simp only [exec, execJumpReg, hj], .inr (.inr (.inr (.inr (.inr ⟨_, _, rfl,
        .inr (.inr (.inr (.inl ⟨r, rfl, rfl, rfl, labelIndex_eq_none_iff.1 hj⟩)))⟩))))⟩
  | jumpImm j =>
    refine ⟨_, rfl, ?_⟩
    rcases jumpThrough_cases j s with ⟨ht, hp⟩ | ⟨ht, hp, hs⟩
    · exact .inr (.inr (.inr (.inr (.inl ⟨j, ht, hp, .inl rfl⟩))))
    · exact .inr (.inr (.inr (.inr (.inr ⟨_, _, ht,
        .inr (.inr (.inr (.inr (.inr (.inl ⟨j, rfl, rfl, rfl, hp, hs⟩)))))⟩))))
  | jumptrue a b d =>
    exact ⟨raiseUnsupported 44 s, by simp only [exec, execJumptrue], .inr (.inr (.inr (.inr (.inr ⟨_, _, rfl,
      .inr (.inr (.inr (.inr (.inr (.inr ⟨a, b, d, rfl, rfl, rfl⟩)))))⟩))))⟩

/-- Every instruction answers a next state. -/
theorem exec_next (i : Instr) (s : State) : ∃ t, exec i s = .next t := by
  obtain ⟨t, h, _⟩ := exec_cases i s
  exact ⟨t, h⟩

end Sys2Proof.Machine
end

