-- ==== Sys2Proof/Laws/Step.lean ====
section
/-! SUPPORT. Laws/Step.lean: everything one step can do, said once. -/

namespace Sys2Proof.Machine

/-! ## Which step is taken -/

theorem step_reset {s : State} {later : List HostTransfer} (h : s.pending = .reset :: later) :
    step s = .next (resetTransfer later s) := by simp [step, systemStep, h]

theorem step_idle {s : State} {later : List HostTransfer} (h : s.pending = .idle :: later) :
    step s = coreStep { s with pending := later } := by simp [step, systemStep, h]

/-- With no Reset and no idle entry at the head, the core takes its own step, or an input transfer in TOKENIZE. -/
theorem step_quiet {s : State} (h : s.hostQuiet) (hp : s.phase ≠ .tokenize ∨ s.pending = []) : step s = coreStep s := by
  cases hq : s.pending with
  | nil => simp [step, systemStep, hq]
  | cons x later =>
    have hphase : s.phase ≠ .tokenize := hp.resolve_right (by simp [hq])
    cases x with
    | reset => exact absurd hq (h later).1
    | idle => exact absurd hq (h later).2
    | putByte b => cases hph : s.phase <;> simp_all [step, systemStep, inputStep]
    | endInput => cases hph : s.phase <;> simp_all [step, systemStep, inputStep]

theorem hostQuiet_nil {s : State} (h : s.pending = []) : s.hostQuiet := by
  intro later; simp [h]

theorem coreStep_execute {s : State} (h : s.phase = .execute) : coreStep s = execStep s := by rw [coreStep, h]

theorem coreStep_tokenize {s : State} (h : s.phase = .tokenize) : coreStep s = .next s := by rw [coreStep, h]

theorem coreStep_ended {s : State} (h : s.phase = .halted ∨ s.phase = .faulted) : coreStep s = .next (endedStep s) := by
  rcases h with h | h <;> rw [coreStep, h]

theorem step_execute {s : State} (h : s.hostQuiet) (hp : s.phase = .execute) : step s = execStep s := by
  rw [step_quiet h (.inl (by simp [hp])), coreStep, hp]

theorem step_ended {s : State} (h : s.hostQuiet) (hp : s.phase = .halted ∨ s.phase = .faulted) :
    step s = .next (endedStep s) := by
  rw [step_quiet h (.inl (by rcases hp with hp | hp <;> simp [hp])), coreStep]
  rcases hp with hp | hp <;> rw [hp]

theorem step_putByte {s : State} {b : Byte} {later : List HostTransfer} (hp : s.phase = .tokenize)
    (h : s.pending = .putByte b :: later) : step s = .next (acceptByte b { s with pending := later }) := by
  simp [step, systemStep, h, inputStep, hp]

theorem step_endInput {s : State} {later : List HostTransfer} (hp : s.phase = .tokenize)
    (h : s.pending = .endInput :: later) : step s = .next (acceptEnd { s with pending := later }) := by
  simp [step, systemStep, h, inputStep, hp]

theorem step_wait {s : State} (hp : s.phase = .tokenize) (h : s.pending = []) : step s = .next s := by
  simp [step, systemStep, h, coreStep, hp]

/-- No Reset among the transfers: none is found. -/
theorem afterReset?_none {p : List HostTransfer} (h : ∀ x ∈ p, x ≠ .reset) : afterReset? p = none := by
  induction p with
  | nil => rfl
  | cons x p ih =>
    have := ih fun y hy => h y (List.mem_cons_of_mem _ hy)
    cases x <;> simp_all [afterReset?]

theorem endedStep_of_no_reset {s : State} (h : ∀ x ∈ s.pending, x ≠ .reset) : endedStep s = s := by
  simp [endedStep, afterReset?_none h]

/-- An ended run either stays as it is or is reset. -/
theorem endedStep_cases (s : State) : endedStep s = s ∨ ∃ later, endedStep s = State.resetWith s.cfg later := by
  rw [endedStep]
  cases h : afterReset? s.pending with
  | none => exact .inl rfl
  | some later => exact .inr ⟨later, rfl⟩

/-- ALL WAYS A STEP IS TAKEN: a Reset; an input transfer in TOKENIZE; or, after an idle entry is passed over if there is
one, the core's own step. -/
theorem step_cases (s : State) :
    (∃ later, s.pending = .reset :: later ∧ step s = .next (State.resetWith s.cfg later)) ∨
    (∃ b later, s.phase = .tokenize ∧ s.pending = .putByte b :: later ∧
      step s = .next (acceptByte b { s with pending := later })) ∨
    (∃ later, s.phase = .tokenize ∧ s.pending = .endInput :: later ∧
      step s = .next (acceptEnd { s with pending := later })) ∨
    (∃ p, (p = s.pending ∧ s.hostQuiet ∧ (s.phase ≠ .tokenize ∨ s.pending = []) ∨ s.pending = .idle :: p) ∧
      step s = coreStep { s with pending := p }) := by
  cases hq : s.pending with
  | nil =>
    have same : ({ s with pending := [] } : State) = s := by rw [← hq]
    exact .inr (.inr (.inr ⟨[], .inl ⟨rfl, hostQuiet_nil hq, .inr rfl⟩, by rw [same]; simp [step, systemStep, hq]⟩))
  | cons x later =>
    cases x with
    | reset => exact .inl ⟨later, rfl, step_reset hq⟩
    | idle => exact .inr (.inr (.inr ⟨later, .inr rfl, step_idle hq⟩))
    | putByte b =>
      by_cases hp : s.phase = .tokenize
      · exact .inr (.inl ⟨b, later, hp, rfl, step_putByte hp hq⟩)
      · have hquiet : s.hostQuiet := fun l => by simp [hq]
        exact .inr (.inr (.inr ⟨_, .inl ⟨rfl, hquiet, .inl hp⟩, by rw [step_quiet hquiet (.inl hp), ← hq]⟩))
    | endInput =>
      by_cases hp : s.phase = .tokenize
      · exact .inr (.inr (.inl ⟨later, hp, rfl, step_endInput hp hq⟩))
      · have hquiet : s.hostQuiet := fun l => by simp [hq]
        exact .inr (.inr (.inr ⟨_, .inl ⟨rfl, hquiet, .inl hp⟩, by rw [step_quiet hquiet (.inl hp), ← hq]⟩))

/-! ## The executor's step (R146) -/

theorem unsupported_iff (c : Config) (op : Byte) :
    unsupported c op = true ↔ op = 44 ∨ op = 40 ∧ c.labelsetRegMode = .unsupported := by
  have : c.jumptrueMode = .unsupported := by cases c.jumptrueMode; rfl
  simp [unsupported, this]

/-- An unsupported instruction raises the same fault in its meaning as the executor raises before fetching its operands. -/
theorem exec_of_unsupported {i : Instr} {s : State} (h : unsupported s.cfg i.opcode = true) :
    exec i s = .next (raiseUnsupported i.opcode s) := by
  rw [unsupported_iff] at h
  cases i <;> simp [Instr.opcode] at h
  · simp [exec, execLabelsetReg, h, Instr.opcode]
  · simp [exec, execJumptrue, Instr.opcode]

/-- EVERYTHING AN EXECUTOR STEP CAN DO, in the order of R314. The last case is the model's own stop on a byte below N that
the store does not list. -/
theorem execStep_cases (s : State) :
    (s.progLen ≤ s.pc ∧ execStep s = .next (s.raise .programBoundsError s.pc s.pc)) ∨
    (∃ op, s.pc < s.progLen ∧ s.prog.read s.pc = some op ∧ arity? op = none ∧
      execStep s = .next (s.raise .unknownOpcode op.toNat s.pc)) ∨
    (∃ op, s.pc < s.progLen ∧ s.prog.read s.pc = some op ∧ unsupported s.cfg op = true ∧
      execStep s = .next (s.raise .unsupportedOpcode op.toNat s.pc)) ∨
    (∃ op a, s.pc < s.progLen ∧ s.prog.read s.pc = some op ∧ arity? op = some a ∧ unsupported s.cfg op = false ∧
      s.progLen ≤ s.pc + a ∧ execStep s = .next (s.raise .programBoundsError s.progLen s.pc)) ∨
    (∃ i, s.prog.read s.pc = some i.opcode ∧ s.prog.readBytes (s.pc + 1) i.arity = some i.operands ∧
      unsupported s.cfg i.opcode = false ∧ s.pc + i.arity < s.progLen ∧ execStep s = exec i s) ∨
    ((∃ k, s.pc ≤ k ∧ k < s.progLen ∧ s.prog.read k = none) ∧ execStep s = .fault (.unwrittenProgramByte s.pc)) := by
  by_cases hb : s.progLen ≤ s.pc
  · exact .inl ⟨hb, by simp [execStep, hb]⟩
  have hlt : s.pc < s.progLen := by omega
  right
  cases hr : s.prog.read s.pc with
  | none => exact .inr (.inr (.inr (.inr ⟨⟨s.pc, le_refl _, hlt, hr⟩, by simp [execStep, hb, hr]⟩)))
  | some op =>
    have e : execStep s = execOpcode op s := by simp [execStep, hb, hr]
    cases ha : arity? op with
    | none => exact .inl ⟨op, hlt, rfl, ha, by rw [e]; simp [execOpcode, ha]⟩
    | some a =>
      right
      cases hu : unsupported s.cfg op with
      | true => exact .inl ⟨op, hlt, rfl, hu, by rw [e]; simp [execOpcode, ha, hu, raiseUnsupported]⟩
      | false =>
        right
        have e' : execStep s = execOperands op a s := by rw [e]; simp [execOpcode, ha, hu]
        by_cases hn : s.progLen ≤ s.pc + a
        · exact .inl ⟨op, a, hlt, rfl, ha, hu, hn, by rw [e']; simp [execOperands, hn]⟩
        · right
          cases hbs : s.prog.readBytes (s.pc + 1) a with
          | none =>
            refine .inr ⟨?_, by rw [e']; simp [execOperands, hn, hbs]⟩
            by_contra hc
            push Not at hc
            obtain ⟨bs, hbs'⟩ := Memory.readBytes_isSome (m := s.prog) (a := s.pc + 1) (n := a) fun k h1 h2 =>
              Option.isSome_iff_ne_none.2 (hc k (by omega) (by omega))
            rw [hbs] at hbs'
            cases hbs'
          | some bs =>
            obtain ⟨i, hi⟩ := assemble_of_arity ha (Memory.readBytes_length hbs)
            obtain ⟨rfl, rfl⟩ := assemble_eq_some hi
            rw [arity?_opcode] at ha
            cases ha
            exact .inl ⟨i, rfl, hbs, hu, by omega, by rw [e']; simp [execOperands, hn, hbs]⟩

/-- Where the bytes of an instruction stand at pc below N, the executor's step is its meaning. -/
theorem execStep_of_bytes {s : State} {i : Instr} (hop : s.prog.read s.pc = some i.opcode)
    (hbs : s.prog.readBytes (s.pc + 1) i.arity = some i.operands) (hn : s.pc + i.arity < s.progLen) :
    execStep s = exec i s := by
  have h1 : ¬ s.progLen ≤ s.pc := by omega
  have h2 : ¬ s.progLen ≤ s.pc + i.arity := by omega
  cases hu : unsupported s.cfg i.opcode with
  | true =>
    rw [exec_of_unsupported hu]
    simp [execStep, h1, hop, execOpcode, hu]
  | false => simp [execStep, h1, hop, execOpcode, hu, execOperands, h2, hbs]

/-! ## Runs -/

@[simp] theorem runSteps_zero (s : State) : runSteps 0 s = .next s := rfl

theorem runSteps_succ_of_next {s t : State} (h : step s = .next t) (n : Nat) : runSteps (n + 1) s = runSteps n t := by
  simp [runSteps, h]

/-- A run of n + 1 steps that answers a state begins with a step that does. -/
theorem runSteps_succ_next {s u : State} {n : Nat} (h : runSteps (n + 1) s = .next u) :
    ∃ t, step s = .next t ∧ runSteps n t = .next u := by
  rw [runSteps] at h
  split at h
  · exact ⟨_, ‹_›, h⟩
  · cases h
  · cases h

theorem runSteps_add {s t : State} {m : Nat} (h : runSteps m s = .next t) (n : Nat) :
    runSteps (m + n) s = runSteps n t := by
  induction m generalizing s with
  | zero => cases h; simp
  | succ m ih =>
    obtain ⟨u, hu, hm⟩ := runSteps_succ_next h
    rw [Nat.add_right_comm, runSteps_succ_of_next hu, ih hm]

/-- What every step keeps, every run keeps. -/
theorem runSteps_keeps {P : State → Prop} (hstep : ∀ s t, P s → step s = .next t → P t) {n : Nat} {s t : State}
    (hs : P s) (h : runSteps n s = .next t) : P t := by
  induction n generalizing s with
  | zero => cases h; exact hs
  | succ n ih =>
    obtain ⟨u, hu, hn⟩ := runSteps_succ_next h
    exact ih (hstep s u hs hu) hn

theorem core_run_succ_of_next (M : Host.Core) (n : Nat) (s t : M.State) (h : M.step s = .next t) :
    M.run (n + 1) s = M.run n t := by
  rw [Host.Core.run, h]

/-- A run of the model that answers a state is the host's run of the core. -/
theorem core_run_of_runSteps {n : Nat} {s t : State} (h : runSteps n s = .next t) :
    Host.Core.run Sys2Proof.core n s = .next t := by
  induction n generalizing s with
  | zero => exact h
  | succ n ih =>
    obtain ⟨u, hu, hn⟩ := runSteps_succ_next h
    exact (core_run_succ_of_next Sys2Proof.core n s u hu).trans (ih hn)

end Sys2Proof.Machine
end

