-- ==== Sys2Proof/Laws/Hidden.lean ====
section
/-! SUPPORT. Laws/Hidden.lean: what an instruction does not read, said once: the tokenizer's fields and the host's
transfers, and the label flags under UNSET_LABEL_POLICY = ZERO. -/

namespace Sys2Proof.Machine

/-- The next state changed by `f`, the stops as they are. -/
def mapNext (f : State → State) : Host.Outcome State Fault Refusal → Host.Outcome State Fault Refusal
  | .next s => .next (f s)
  | .fault r => .fault r
  | .refused r => .refused r

@[simp] theorem mapNext_next (f : State → State) (s : State) : mapNext f (.next s) = .next (f s) := rfl

theorem mapNext_eq_next {f : State → State} {o : Host.Outcome State Fault Refusal} {t : State}
    (h : mapNext f o = .next t) : ∃ u, o = .next u ∧ t = f u := by
  cases o with
  | next u => cases h; exact ⟨u, rfl, rfl⟩
  | fault r => cases h
  | refused r => cases h

/-- The same state but for the tokenizer's fields and the host's transfers. -/
def State.around (len : Nat) (first acc : Byte) (p : List HostTransfer) (s : State) : State :=
  { s with tkLen := len, tkFirst := first, tkAcc := acc, pending := p }

theorem addValue_around (len : Nat) (first acc : Byte) (p : List HostTransfer) (rd : Byte) (y : Int) (s : State) :
    addValue rd y (s.around len first acc p) = (addValue rd y s).around len first acc p := by
  unfold addValue
  change (match addCells s.cfg (s.reg rd) y with | some v => _ | none => _) = _
  cases addCells s.cfg (s.reg rd) y <;> rfl

theorem jumpThrough_around (len : Nat) (first acc : Byte) (p : List HostTransfer) (j : Byte) (s : State) :
    jumpThrough j (s.around len first acc p) = (jumpThrough j s).around len first acc p := by
  unfold jumpThrough
  change (match lookupLabel s j with | some v => _ | none => _) = _
  cases lookupLabel s j <;> rfl

/-- No instruction reads or writes the tokenizer's fields or the host's transfers. -/
theorem exec_around (len : Nat) (first acc : Byte) (p : List HostTransfer) (i : Instr) (s : State) :
    exec i (s.around len first acc p) = mapNext (State.around len first acc p) (exec i s) := by
  cases i with
  | halt => rfl
  | storeImm => rfl
  | storeReg => rfl
  | addImm b rd => exact congrArg Host.Outcome.next (addValue_around ..)
  | addReg r rd => exact congrArg Host.Outcome.next (addValue_around ..)
  | printReg => rfl
  | printChar => rfl
  | labelsetReg r =>
    change execLabelsetReg r _ = mapNext _ (execLabelsetReg r s)
    unfold execLabelsetReg
    change (match s.cfg.labelsetRegMode with
      | .indexFromReg => match labelIndex (s.reg r) with | some _ => _ | none => _
      | .valueFromReg => match regIndex (s.reg r) s.cfg.progMax with | some _ => _ | none => _
      | .unsupported => _) = _
    cases s.cfg.labelsetRegMode
    · cases labelIndex (s.reg r) <;> rfl
    · cases regIndex (s.reg r) s.cfg.progMax <;> rfl
    · rfl
  | labelsetImm => rfl
  | jumpReg r =>
    change execJumpReg r _ = mapNext _ (execJumpReg r s)
    unfold execJumpReg
    change (match labelIndex (s.reg r) with | some _ => _ | none => _) = _
    cases labelIndex (s.reg r) with
    | some j => exact congrArg Host.Outcome.next (jumpThrough_around ..)
    | none => rfl
  | jumpImm j => exact congrArg Host.Outcome.next (jumpThrough_around ..)
  | jumptrue => simp only [exec, execJumptrue]; rfl

/-- The executor's step relates two states as every instruction and every fault of the fetch do, where the states agree on
what the fetch reads. -/
theorem execStep_rel {R : Host.Outcome State Fault Refusal → Host.Outcome State Fault Refusal → Prop} {s t : State}
    (hcfg : t.cfg = s.cfg) (hprog : t.prog = s.prog) (hlen : t.progLen = s.progLen) (hpc : t.pc = s.pc)
    (hraise : ∀ c v q, R (.next (s.raise c v q)) (.next (t.raise c v q))) (hexec : ∀ i, R (exec i s) (exec i t))
    (hfault : ∀ r, R (.fault r) (.fault r)) : R (execStep s) (execStep t) := by
  unfold execStep
  rw [hlen, hpc, hprog]
  split
  · exact hraise _ _ _
  · split
    · unfold execOpcode
      split
      · rw [hpc]; exact hraise _ _ _
      · rw [hcfg]
        split
        · unfold raiseUnsupported; rw [hpc]; exact hraise _ _ _
        · unfold execOperands
          rw [hlen, hpc, hprog]
          split
          · exact hraise _ _ _
          · split
            · exact hexec _
            · exact hfault _
    · exact hfault _

/-- The executor's step does not read the tokenizer's fields or the host's transfers. -/
theorem execStep_around (len : Nat) (first acc : Byte) (p : List HostTransfer) (s : State) :
    execStep (s.around len first acc p) = mapNext (State.around len first acc p) (execStep s) :=
  execStep_rel (R := fun o o' => o' = mapNext (State.around len first acc p) o) rfl rfl rfl rfl
    (fun _ _ _ => rfl) (fun i => exec_around len first acc p i s) fun _ => rfl

/-- The same state but for the label flags. -/
def State.withFlags (flags : Vector Bool 256) (s : State) : State :=
  { s with labelSet := flags }

/-- Under ZERO an instruction's effect does not depend on the label flags: the next states differ in nothing but them. -/
theorem exec_withFlags (flags : Vector Bool 256) (i : Instr) (s : State) (h : s.cfg.unsetLabelPolicy = .zero) :
    ∃ flags', exec i (s.withFlags flags) = mapNext (State.withFlags flags') (exec i s) := by
  have hl : ∀ j, lookupLabel (s.withFlags flags) j = some (s.label j) := fun j => lookupLabel_eq_some (.inl h)
  have hj : ∀ j, jumpThrough j (s.withFlags flags) = (jumpThrough j s).withFlags flags := fun j => by
    rw [jumpThrough, hl, jumpThrough, lookupLabel_eq_some (.inl h)]; rfl
  have hadd : ∀ rd y, addValue rd y (s.withFlags flags) = (addValue rd y s).withFlags flags := fun rd y => by
    unfold addValue
    change (match addCells s.cfg (s.reg rd) y with | some v => _ | none => _) = _
    cases addCells s.cfg (s.reg rd) y <;> rfl
  cases i with
  | halt => exact ⟨flags, rfl⟩
  | storeImm => exact ⟨flags, rfl⟩
  | storeReg => exact ⟨flags, rfl⟩
  | addImm => exact ⟨flags, congrArg Host.Outcome.next (hadd ..)⟩
  | addReg => exact ⟨flags, congrArg Host.Outcome.next (hadd ..)⟩
  | printReg => exact ⟨flags, rfl⟩
  | printChar => exact ⟨flags, rfl⟩
  | labelsetReg r =>
    cases hm : s.cfg.labelsetRegMode with
    | indexFromReg =>
      cases hi : labelIndex (s.reg r) with
      | some j =>
        refine ⟨flags.set j.toNat true j.isLt, ?_⟩
        have hm' : (s.withFlags flags).cfg.labelsetRegMode = .indexFromReg := hm
        have hi' : labelIndex ((s.withFlags flags).reg r) = some j := hi
        simp only [exec, execLabelsetReg, hm, hm', hi, hi']; rfl
      | none =>
        refine ⟨flags, ?_⟩
        have hm' : (s.withFlags flags).cfg.labelsetRegMode = .indexFromReg := hm
        have hi' : labelIndex ((s.withFlags flags).reg r) = none := hi
        simp only [exec, execLabelsetReg, hm, hm', hi, hi']; rfl
    | valueFromReg =>
      cases hi : regIndex (s.reg r) s.cfg.progMax with
      | some v =>
        refine ⟨flags.set r.toNat true r.isLt, ?_⟩
        have hm' : (s.withFlags flags).cfg.labelsetRegMode = .valueFromReg := hm
        have hi' : regIndex ((s.withFlags flags).reg r) (s.withFlags flags).cfg.progMax = some v := hi
        simp only [exec, execLabelsetReg, hm, hm', hi, hi']; rfl
      | none =>
        refine ⟨flags, ?_⟩
        have hm' : (s.withFlags flags).cfg.labelsetRegMode = .valueFromReg := hm
        have hi' : regIndex ((s.withFlags flags).reg r) (s.withFlags flags).cfg.progMax = none := hi
        simp only [exec, execLabelsetReg, hm, hm', hi, hi']; rfl
    | unsupported =>
      refine ⟨flags, ?_⟩
      have hm' : (s.withFlags flags).cfg.labelsetRegMode = .unsupported := hm
      simp only [exec, execLabelsetReg, hm, hm']; rfl
  | labelsetImm j => exact ⟨flags.set j.toNat true j.isLt, rfl⟩
  | jumpReg r =>
    cases hi : labelIndex (s.reg r) with
    | some j =>
      have hi' : labelIndex ((s.withFlags flags).reg r) = some j := hi
      exact ⟨flags, by simp only [exec, execJumpReg, hi, hi', hj, mapNext]⟩
    | none =>
      have hi' : labelIndex ((s.withFlags flags).reg r) = none := hi
      exact ⟨flags, by simp only [exec, execJumpReg, hi, hi']; rfl⟩
  | jumpImm => exact ⟨flags, congrArg Host.Outcome.next (hj _)⟩
  | jumptrue => exact ⟨flags, by simp only [exec, execJumptrue]; rfl⟩

/-- Under ZERO the executor's step does not depend on the label flags. -/
theorem execStep_withFlags (flags : Vector Bool 256) (s : State) (h : s.cfg.unsetLabelPolicy = .zero) :
    ∃ flags', execStep (s.withFlags flags) = mapNext (State.withFlags flags') (execStep s) :=
  execStep_rel (R := fun o o' => ∃ flags', o' = mapNext (State.withFlags flags') o) rfl rfl rfl rfl
    (fun _ _ _ => ⟨flags, rfl⟩) (fun i => exec_withFlags flags i s h) fun _ => ⟨flags, rfl⟩

end Sys2Proof.Machine
end

