-- ==== Sys2Proof/Laws/PerInstr.lean ====
section
/-! SUPPORT. Laws/PerInstr.lean: the statements made of every instruction, one lemma per constructor. -/

namespace Sys2Proof.Laws.EncodedForm

/-- The form of an instruction as R120, R121 and R124 give it: it is well-formed, its encoding is its opcode byte and then
as many operand bytes as the opcode map says, 1 to 4 bytes in all, and its opcode is one of the listed codes. -/
def Statement (i : Instr) : Prop :=
  i.wellFormed = true ∧ encode i = i.opcode :: i.operands ∧ (encode i).length = 1 + i.arity ∧
    1 ≤ (encode i).length ∧ (encode i).length ≤ 4 ∧ arity? i.opcode = some i.arity ∧ i.opcode.toNat ∈ listedCodes

theorem halt : Statement .halt := by
  refine ⟨rfl, rfl, rfl, ?_, ?_, rfl, ?_⟩ <;> decide

theorem storeImm (imm rd : Byte) : Statement (.storeImm imm rd) :=
  ⟨rfl, rfl, rfl, by simp [encode], by simp [encode, Instr.operands], rfl, by simp [Instr.opcode, listedCodes]⟩

theorem storeReg (rs rd : Byte) : Statement (.storeReg rs rd) :=
  ⟨rfl, rfl, rfl, by simp [encode], by simp [encode, Instr.operands], rfl, by simp [Instr.opcode, listedCodes]⟩

theorem addImm (imm rd : Byte) : Statement (.addImm imm rd) :=
  ⟨rfl, rfl, rfl, by simp [encode], by simp [encode, Instr.operands], rfl, by simp [Instr.opcode, listedCodes]⟩

theorem addReg (rs rd : Byte) : Statement (.addReg rs rd) :=
  ⟨rfl, rfl, rfl, by simp [encode], by simp [encode, Instr.operands], rfl, by simp [Instr.opcode, listedCodes]⟩

theorem printReg (rs : Byte) : Statement (.printReg rs) :=
  ⟨rfl, rfl, rfl, by simp [encode], by simp [encode, Instr.operands], rfl, by simp [Instr.opcode, listedCodes]⟩

theorem printChar (chr : Byte) : Statement (.printChar chr) :=
  ⟨rfl, rfl, rfl, by simp [encode], by simp [encode, Instr.operands], rfl, by simp [Instr.opcode, listedCodes]⟩

theorem labelsetReg (op1 : Byte) : Statement (.labelsetReg op1) :=
  ⟨rfl, rfl, rfl, by simp [encode], by simp [encode, Instr.operands], rfl, by simp [Instr.opcode, listedCodes]⟩

theorem labelsetImm (lbl : Byte) : Statement (.labelsetImm lbl) :=
  ⟨rfl, rfl, rfl, by simp [encode], by simp [encode, Instr.operands], rfl, by simp [Instr.opcode, listedCodes]⟩

theorem jumpReg (rs : Byte) : Statement (.jumpReg rs) :=
  ⟨rfl, rfl, rfl, by simp [encode], by simp [encode, Instr.operands], rfl, by simp [Instr.opcode, listedCodes]⟩

theorem jumpImm (lbl : Byte) : Statement (.jumpImm lbl) :=
  ⟨rfl, rfl, rfl, by simp [encode], by simp [encode, Instr.operands], rfl, by simp [Instr.opcode, listedCodes]⟩

theorem jumptrue (op1 op2 op3 : Byte) : Statement (.jumptrue op1 op2 op3) :=
  ⟨rfl, rfl, rfl, by simp [encode], by simp [encode, Instr.operands], rfl, by simp [Instr.opcode, listedCodes]⟩

end Sys2Proof.Laws.EncodedForm
end

