-- ==== Sys2Proof/Laws/Tokenizer.lean ====
section
/-! SUPPORT. Laws/Tokenizer.lean: everything a tokenizer step can do, said once. -/

namespace Sys2Proof.Machine

/-- A committed token: the byte appended, the tokenizer cleared (R110). -/
def committed (s : State) : State :=
  (s.appendByte s.tkAcc).clearToken

theorem commit?_of_room {s : State} (h : s.progLen ≠ s.cfg.progMax) : commit? s = some (committed s) := by
  simp [commit?, committed, h]

theorem commit?_of_full {s : State} (h : s.progLen = s.cfg.progMax) : commit? s = none := by
  simp [commit?, h]

/-- EVERYTHING AN ACCEPTED BYTE CAN DO (R105, R106, R110). -/
theorem acceptByte_cases (b : Byte) (s : State) :
    (b ∈ s.cfg.delimiters ∧
      (s.tkLen = 0 ∧ acceptByte b s = s ∨
       s.tkLen = 16 ∧ s.progLen ≠ s.cfg.progMax ∧ acceptByte b s = committed s ∨
       s.tkLen = 16 ∧ s.progLen = s.cfg.progMax ∧ acceptByte b s = raiseOutOfMemory s ∨
       s.tkLen ≠ 0 ∧ s.tkLen ≠ 16 ∧ acceptByte b s = raiseFormatError s.tkLen s)) ∨
    (b ∉ s.cfg.delimiters ∧
      (s.tkLen = 16 ∧ acceptByte b s = raiseFormatError 17 s ∨ s.tkLen ≠ 16 ∧ acceptByte b s = packByte b s)) := by
  by_cases hd : b ∈ s.cfg.delimiters
  · have e : acceptByte b s = tokenDelimiter s := by simp [acceptByte, hd]
    refine .inl ⟨hd, ?_⟩
    rw [e, tokenDelimiter]
    by_cases h0 : s.tkLen = 0
    · exact .inl ⟨h0, by rw [if_pos h0]⟩
    · rw [if_neg h0]
      by_cases h16 : s.tkLen = 16
      · rw [if_pos h16]
        by_cases hf : s.progLen = s.cfg.progMax
        · exact .inr (.inr (.inl ⟨h16, hf, by rw [commit?_of_full hf]; rfl⟩))
        · exact .inr (.inl ⟨h16, hf, by rw [commit?_of_room hf]; rfl⟩)
      · exact .inr (.inr (.inr ⟨h0, h16, by rw [if_neg h16]⟩))
  · have e : acceptByte b s = tokenByte b s := by simp [acceptByte, hd]
    refine .inr ⟨hd, ?_⟩
    rw [e, tokenByte]
    by_cases h16 : s.tkLen = 16
    · exact .inl ⟨h16, by rw [if_pos h16]⟩
    · exact .inr ⟨h16, by rw [if_neg h16]⟩

/-- EVERYTHING THE ACCEPTED END OF INPUT CAN DO (R107, R110). -/
theorem acceptEnd_cases (s : State) :
    (s.tkLen = 0 ∧ acceptEnd s = s.startExecution) ∨
    (s.tkLen = 16 ∧ s.progLen ≠ s.cfg.progMax ∧ acceptEnd s = (committed s).startExecution) ∨
    (s.tkLen = 16 ∧ s.progLen = s.cfg.progMax ∧ acceptEnd s = raiseOutOfMemory s) ∨
    (s.tkLen ≠ 0 ∧ s.tkLen ≠ 16 ∧ acceptEnd s = raiseFormatError s.tkLen s) := by
  by_cases h16 : s.tkLen = 16
  · by_cases hf : s.progLen = s.cfg.progMax
    · exact .inr (.inr (.inl ⟨h16, hf, by simp [acceptEnd, h16, commit?_of_full hf]⟩))
    · exact .inr (.inl ⟨h16, hf, by simp [acceptEnd, h16, commit?_of_room hf]⟩)
  · by_cases h0 : s.tkLen = 0
    · exact .inl ⟨h0, by simp [acceptEnd, h0]⟩
    · exact .inr (.inr (.inr ⟨h0, h16, by simp [acceptEnd, h16, h0]⟩))

/-- The pairwise comparator (R105): the byte latched, or the pair's bit set when the bytes are equal, or nothing but the
count. -/
theorem packByte_cases (b : Byte) (s : State) :
    (s.tkLen % 2 = 0 ∧ packByte b s = { s with tkFirst := b, tkLen := s.tkLen + 1 }) ∨
    (s.tkLen % 2 = 1 ∧ b = s.tkFirst ∧ packByte b s =
      { s with tkAcc := s.tkAcc ||| ((1 : Byte) <<< ((s.tkLen - 1) / 2)), tkLen := s.tkLen + 1 }) ∨
    (s.tkLen % 2 = 1 ∧ b ≠ s.tkFirst ∧ packByte b s = { s with tkLen := s.tkLen + 1 }) := by
  by_cases h : s.tkLen % 2 = 0
  · exact .inl ⟨h, by simp [packByte, h]⟩
  · by_cases hb : b = s.tkFirst
    · exact .inr (.inl ⟨by omega, hb, by simp [packByte, h, hb]⟩)
    · exact .inr (.inr ⟨by omega, hb, by simp [packByte, h, hb]⟩)

/-- Setting bit n of a byte. -/
theorem setBit_getLsbD (acc : Byte) (n i : Nat) (hi : i < 8) :
    (acc ||| ((1 : Byte) <<< n)).getLsbD i = (acc.getLsbD i || i == n) := by
  by_cases h : i = n
  · subst h; simp [hi]
  · rw [BitVec.getLsbD_or, BitVec.getLsbD_shiftLeft]
    by_cases hlt : i < n
    · simp [hlt, h]
    · have : i - n ≠ 0 := by omega
      simp [hlt, h, hi, this]

/-- No step of the tokenizer writes a register, a label, pc or the output, but for pc <- 0 at the end (R109). -/
theorem acceptByte_frame (b : Byte) (s : State) :
    SameRegs s (acceptByte b s) ∧ SameLabels s (acceptByte b s) ∧ (acceptByte b s).pc = s.pc ∧
      (acceptByte b s).out = s.out ∧ (acceptByte b s).cfg = s.cfg ∧ (acceptByte b s).pending = s.pending := by
  rcases acceptByte_cases b s with ⟨_, ⟨_, e⟩ | ⟨_, _, e⟩ | ⟨_, _, e⟩ | ⟨_, _, e⟩⟩ | ⟨_, ⟨_, e⟩ | ⟨_, e⟩⟩
  case inr.inr => rcases packByte_cases b s with ⟨_, e'⟩ | ⟨_, _, e'⟩ | ⟨_, _, e'⟩ <;> rw [e, e'] <;>
    exact ⟨fun _ => rfl, fun _ => ⟨rfl, rfl⟩, rfl, rfl, rfl, rfl⟩
  all_goals rw [e]; exact ⟨fun _ => rfl, fun _ => ⟨rfl, rfl⟩, rfl, rfl, rfl, rfl⟩

theorem acceptEnd_frame (s : State) :
    SameRegs s (acceptEnd s) ∧ SameLabels s (acceptEnd s) ∧ (s.pc = 0 → (acceptEnd s).pc = 0) ∧
      (acceptEnd s).out = s.out ∧ (acceptEnd s).cfg = s.cfg ∧ (acceptEnd s).pending = s.pending := by
  rcases acceptEnd_cases s with ⟨_, e⟩ | ⟨_, _, e⟩ | ⟨_, _, e⟩ | ⟨_, _, e⟩ <;> rw [e] <;>
    exact ⟨fun _ => rfl, fun _ => ⟨rfl, rfl⟩, fun h => by first | rfl | exact h, rfl, rfl, rfl⟩

end Sys2Proof.Machine
end

