-- ==== Sys2Proof/Tests/Slice0.lean ====
section
/-! SUPPORT. Tests/Slice0.lean: small tests of the checks, the decoder, each instruction's step and the tokenizer, their
expected values taken from the examples and vectors of spec/ named in each comment; and one witness for the hypotheses of
each statement of Certificates/Slice0/Obligations.lean. -/

namespace Sys2Proof.Tests

open Sys2Proof Sys2Proof.Machine

/-! ## Helpers -/

/-- The next state of an outcome. -/
def after : Host.Outcome State Fault Refusal → Option State
  | .next s => some s
  | .fault _ => none
  | .refused _ => none

/-- The ASCII bytes of a text. -/
def ascii (text : String) : List Byte :=
  text.toList.map fun c => BitVec.ofNat 8 c.toNat

/-- A core in EXECUTE at pc, with `bytes` standing there and the program ending after them. -/
def running (c : Config) (pc : Nat) (bytes : List Byte) : State :=
  State.placeCode { State.resetWith c [] with pc := pc } bytes

/-- A core in TOKENIZE with `n` bytes stored and `k` bytes of the current token read, the last even one `first`. -/
def scanning (c : Config) (n k : Nat) (first acc : Byte) (later : List HostTransfer) : State :=
  { State.resetWith c later with
    prog := Memory.writeBytes [] 0 (List.replicate n 0), progLen := n, tkLen := k, tkFirst := first, tkAcc := acc }

/-- The defaults of R11 with a program store of 64 bytes. -/
def small : Config := Config.defaults 64

/-- `small` with nine-bit cells, as S8, S9 and S14 of spec/95_test_vectors.md have them. -/
def nine (policy : AddOverflow) (ext : ImmExt) : Config :=
  { small with regW := 9, addOverflow := policy, immExt := ext }

/-! ## The checks of WellFormed.lean

Instr.wellFormed refuses no term of Instr: every operand byte is admitted in every position (R34, R122), and the
constructors fix how many there are. -/

/-- R12: REG_W is at least 9. -/
theorem test_wellFormed_refuses_eight_bit_cells : ({ small with regW := 8 } : Config).wellFormed = false := by decide

/-- R11: PROG_MAX is at least 1. -/
theorem test_wellFormed_refuses_empty_store : (Config.defaults 0).wellFormed = false := by decide

/-- R17: DELIMITERS is a set. -/
theorem test_wellFormed_refuses_repeated_delimiter :
    ({ small with delimiters := [0x20, 0x0A, 0x20] } : Config).wellFormed = false := by decide

/-- R11, R12: the least admitted values. -/
theorem test_wellFormed_accepts_least_values : ({ Config.defaults 1 with regW := 9 } : Config).wellFormed = true := by decide

/-- R100, W7: 15 bytes and 17 bytes are no token, and a token holds no delimiter. -/
theorem test_tokenWellFormed_refuses :
    tokenWellFormed small (ascii "abababababababa") = false ∧ tokenWellFormed small (ascii "ababababababababa") = false ∧
      tokenWellFormed small (ascii "abababab abababa") = false := by decide

/-- R120: every instruction is well-formed; the longest one. -/
theorem test_wellFormed_accepts_jumptrue : (Instr.jumptrue 255 0 128).wellFormed = true := by decide

/-! ## The decoder, on words written out from R121, R124 and spec/opcode_table.json -/

theorem test_decode_halt : decode [0b00000000] = .ok (.halt, []) := rfl
theorem test_decode_storeImm : decode [0b00000001, 0b00000101, 0b10000000] = .ok (.storeImm 5 128, []) := rfl
theorem test_decode_storeReg : decode [0b00000010, 0b00000011, 0b00001001] = .ok (.storeReg 3 9, []) := rfl
theorem test_decode_addImm : decode [0b00001010, 0b11111111, 0b00000001] = .ok (.addImm 255 1, []) := rfl
theorem test_decode_addReg : decode [0b00001011, 0b00000001, 0b11111110] = .ok (.addReg 1 254, []) := rfl
theorem test_decode_printReg : decode [0b00010100, 0b11111111] = .ok (.printReg 255, []) := rfl
theorem test_decode_printChar : decode [0b00010101, 0b01000001] = .ok (.printChar 65, []) := rfl
theorem test_decode_labelsetReg : decode [0b00101000, 0b00000010] = .ok (.labelsetReg 2, []) := rfl
theorem test_decode_labelsetImm : decode [0b00101001, 0b00000111] = .ok (.labelsetImm 7, []) := rfl
theorem test_decode_jumpReg : decode [0b00101010, 0b00000101] = .ok (.jumpReg 5, []) := rfl
theorem test_decode_jumpImm : decode [0b00101011, 0b10000001, 0b00000000] = .ok (.jumpImm 129, [0]) := rfl
theorem test_decode_jumptrue :
    decode [0b00101100, 0b00000001, 0b00000010, 0b00000011] = .ok (.jumptrue 1 2 3, []) := rfl

/-- R125: the gaps of the map next to its codes. -/
theorem test_decode_unlisted : ∀ b ∈ ([3, 9, 12, 19, 22, 39, 45, 99, 255] : List Byte),
    arity? b = none ∧ decodeTableWord 8 b.toNat = none := by decide

/-- The opcode table's numbering: the opcode is byte 0, bits 7..0. -/
theorem test_decodeTableWord :
    decodeTableWord 24 0x800501 = some (.storeImm 5 128) ∧ decodeTableWord 8 0x00 = some .halt ∧
      decodeTableWord 32 0x0302012C = some (.jumptrue 1 2 3) ∧ decodeTableWord 16 0xFF412B = some (.jumpImm 0x41) := by
  decide

/-- The placed word is what the next step runs, as the first instruction after reset. -/
theorem test_withFetchWord :
    ((after (step (State.reset.withFetchWord 24 0x070501))).map fun t => (t.reg 7, t.pc, t.phase)) =
      some (5, 3, .execute) := by decide

/-! ## Tokens -/

/-- W1 of spec/95_test_vectors.md: the pairs gg, 99, gz, 91, XX, xy, ZZ, zz are 211. -/
theorem test_decodeToken_W1 : decodeToken (ascii "gg99gz91XXxyZZzz") = 211 := by decide

/-- R124's canonical opcode token of ADD_REG, and T4's bytes for the same value. -/
theorem test_decodeToken_addReg :
    encodeToken 11 = ascii "aaaaabaaabababab" ∧
      decodeToken ([0x09, 0x09, 0x00, 0x00, 0xFF, 0xFE, 0x80, 0x80] ++ ascii "abababab") = 11 := by decide

/-- T7: leading, repeated and trailing delimiters separate nothing. -/
theorem test_splitTokens_T7 :
    splitTokens [0x20, 0x0A] (ascii "\n  ab  \n\ncd\n") = [ascii "ab", ascii "cd"] := by decide

/-- W7: the 17th byte of a token raises FormatError(17, N). -/
theorem test_tokenizer_seventeenth_byte :
    ((after (step (scanning small 0 16 0x61 0 [.putByte 0x61]))).map fun t =>
      (t.phase, t.faultCause, t.faultValue, t.faultPos, t.progLen)) = some (.faulted, .formatError, 17, 0, 0) := by decide

/-- T12: a token ends while the store is full. -/
theorem test_tokenizer_store_full :
    ((after (step (scanning (Config.defaults 2) 2 16 0x61 0 [.putByte 0x20]))).map fun t =>
      (t.phase, t.faultCause, t.faultValue, t.faultPos, t.progLen)) = some (.faulted, .outOfMemory, 2, 2, 2) := by decide

/-- T8: the end of input commits the last token and starts execution at 0. -/
theorem test_tokenizer_end_commits :
    ((after (step (scanning small 1 16 0x61 211 [.endInput]))).map fun t =>
      (t.phase, t.pc, t.progLen, t.prog.read 1, t.tkLen, t.tkAcc)) = some (.execute, 0, 2, some 211, 0, 0) := by decide

/-- R105: the comparator sets bit (k-1)/2 on an equal pair. -/
theorem test_tokenizer_packs_bit :
    ((after (step (scanning small 0 15 0x7A 0x53 [.putByte 0x7A]))).map fun t => (t.tkLen, t.tkAcc)) =
      some (16, 0xD3) := by decide

/-! ## Assembly lines -/

/-- R128, P4: prefixes, a comment, a quoted character that is a comma, one raw byte. -/
theorem test_asmLine_reads :
    asmLine "STORE_IMM 22, r3" = some [1, 22, 3] ∧ asmLine "HALT                 ; pc 22" = some [0] ∧
      asmLine "PRINT_CHAR ','" = some [21, 44] ∧ asmLine ".byte 255" = some [255] ∧ asmLine "; a comment" = some [] := by
  decide

/-- R128: too few operands, an operand above 255, and no mnemonic of R124. -/
theorem test_asmLine_refuses :
    asmLine "STORE_IMM 5" = none ∧ asmLine "STORE_IMM 256, r0" = none ∧ asmLine "JUMP L0" = none := by decide

/-! ## The instructions, one step each -/

/-- X2. -/
theorem test_halt :
    ((after (step (running small 0 [0, 99]))).map fun t => (t.phase, t.pc, t.status, t.exitCode)) =
      some (.halted, 0, 2, 0) := by decide

/-- S1, S2: 255 is 255 under ZERO and -1 under SIGN. -/
theorem test_storeImm_extends :
    ((after (step (running small 0 [1, 255, 7]))).map fun t => (t.reg 7, t.pc)) = some (255, 3) ∧
      ((after (step (running { small with immExt := .sign } 0 [1, 255, 7]))).map fun t => (t.reg 7, t.pc)) =
        some (-1, 3) := by decide

/-- R172's example. -/
theorem test_storeReg_copies_negative :
    ((after (step ((running small 0 [2, 3, 9]).setReg 3 (-7)))).map fun t => (t.reg 9, t.reg 3, t.pc)) =
      some (-7, -7, 3) := by decide

/-- S4. -/
theorem test_storeReg_same_register :
    ((after (step ((running small 3 [2, 3, 3]).setReg 3 42))).map fun t => (t.reg 3, t.pc)) = some (42, 6) := by decide

/-- R174: 2147483647 plus 1 under WRAP at 32 bits. -/
theorem test_addImm_wraps :
    ((after (step ((running small 0 [10, 1, 0]).setReg 0 2147483647))).map fun t => (t.reg 0, t.pc)) =
      some (-2147483648, 3) := by decide

/-- S9: nine bits under FAULT; the destination is unchanged. -/
theorem test_addImm_overflow_faults :
    ((after (step ((running (nine .fault .zero) 3 [10, 1, 0]).setReg 0 255))).map fun t =>
      (t.phase, t.faultCause, t.faultValue, t.faultPos, t.pc, t.reg 0)) =
      some (.faulted, .addOverflow, 0, 3, 3, 255) := by decide

/-- R176: -2147483648 doubled is 0. -/
theorem test_addReg_doubles_and_wraps :
    ((after (step ((running small 0 [11, 0, 0]).setReg 0 (-2147483648)))).map fun t => (t.reg 0, t.pc)) = some (0, 3) := by
  decide

/-- S16: the destination is op2. -/
theorem test_addReg_operand_order :
    ((after (step (((running small 6 [11, 0, 1]).setReg 0 3).setReg 1 4))).map fun t => (t.reg 0, t.reg 1)) =
      some (3, 7) := by decide

/-- S18: the longest decimal at 32 bits. -/
theorem test_printReg_minimum :
    ((after (step ((running small 0 [20, 0]).setReg 0 (-2147483648)))).map fun t => (t.out, t.pc)) =
      some (ascii "-2147483648\n", 2) := by decide

/-- O1. -/
theorem test_printReg_zero :
    ((after (step (running small 0 [20, 0]))).map fun t => (t.out, t.pc)) = some (ascii "0\n", 2) := by decide

/-- O5: a newline byte is printed as it stands, before NEWLINE. -/
theorem test_printChar_newline :
    ((after (step (running small 2 [21, 10]))).map fun t => (t.out, t.pc)) = some ([0x0A, 0x0A], 4) := by decide

/-- R223's example: at pc 6 with reg[2] = 9 the label 9 becomes 8. -/
theorem test_labelsetReg_index :
    ((after (step ((running small 6 [40, 2]).setReg 2 9))).map fun t =>
      (t.label 9, t.isLabelSet 9, t.label 2, t.isLabelSet 2, t.pc)) = some (8, true, 0, false, 8) := by decide

/-- J10: VALUE_FROM_REG writes the register's value to the label op1. -/
theorem test_labelsetReg_value :
    ((after (step ((running { small with labelsetRegMode := .valueFromReg } 3 [40, 2]).setReg 2 7))).map fun t =>
      (t.label 2, t.isLabelSet 2, t.label 7, t.isLabelSet 7, t.pc)) = some (7, true, 0, false, 5) := by decide

/-- R225's example. -/
theorem test_labelsetImm :
    ((after (step (running small 0 [41, 0]))).map fun t => (t.label 0, t.isLabelSet 0, t.pc)) = some (2, true, 2) := by
  decide

/-- R226's example, at pc 5: reg[5] = 0 and label[0] = 2. -/
theorem test_jumpReg_jumps :
    ((after (step ((running small 5 [42, 5]).setLabel 0 2))).map fun t => (t.pc, t.phase)) = some (2, .execute) := by decide

/-- J6: index 300. -/
theorem test_jumpReg_index_out_of_range :
    ((after (step ((running small 6 [42, 0]).setReg 0 300))).map fun t => (t.faultCause, t.faultValue, t.faultPos, t.pc)) =
      some (.indexBoundsError, 300, 6, 6) := by decide

/-- R227's example. -/
theorem test_jumpImm_jumps :
    ((after (step ((running small 6 [43, 0]).setLabel 0 2))).map fun t => (t.pc, t.phase)) = some (2, .execute) := by decide

/-- J4: a label never written, under FAULT. -/
theorem test_jumpImm_unset_label :
    ((after (step (running { small with unsetLabelPolicy := .fault } 0 [43, 5]))).map fun t =>
      (t.phase, t.faultCause, t.faultValue, t.faultPos, t.pc)) = some (.faulted, .unsetLabel, 5, 0, 0) := by decide

/-- X9: UnsupportedOpcode comes before ProgramBoundsError. -/
theorem test_jumptrue_truncated :
    ((after (step (running small 0 [44]))).map fun t => (t.faultCause, t.faultCause.code, t.faultValue, t.faultPos)) =
      some (.unsupportedOpcode, 5, 44, 0) := by decide

/-- X10. -/
theorem test_jumptrue_whole :
    ((after (step (running small 0 [44, 0, 0, 0]))).map fun t => (t.faultCause, t.faultValue, t.faultPos, t.status)) =
      some (.unsupportedOpcode, 44, 0, 7) := by decide

/-- X7, X12, T5: the operand bound, an unknown opcode as the last byte, and the empty program. -/
theorem test_fetch_faults :
    ((after (step (running small 0 [1, 5]))).map fun t => (t.faultCause, t.faultValue)) =
        some (.programBoundsError, 2) ∧
      ((after (step (running small 0 [99]))).map fun t => (t.faultCause, t.faultValue)) = some (.unknownOpcode, 99) ∧
      ((after (step (running small 0 []))).map fun t => (t.faultCause, t.faultValue)) =
        some (.programBoundsError, 0) := by decide

/-- R340, R313: a Reset leaves an ended run, and the input before it is lost. -/
theorem test_reset_leaves_halted :
    ((after (step { running small 0 [0] with
        phase := .halted, out := [0x41, 0x0A], pending := [.putByte 0x61, .endInput, .reset, .endInput] })).map fun t =>
      (t.phase, t.out, t.progLen, t.pending)) = some (.tokenize, [], 0, [.endInput]) := by decide

/-! ## Witnesses: states and operands that meet the hypotheses of each statement that has some, at the ends of each range -/

/-- A program of one jump through label 0, filling its store: N = PROG_MAX = 2. -/
def jumping : State :=
  running (Config.defaults 2) 0 [43, 0]

/-- A core that has just begun to execute a program that fits has the invariant. -/
theorem running_inv (c : Config) (bytes : List Byte) (hc : c.wellFormed = true) (hl : bytes.length ≤ c.progMax) :
    (running c 0 bytes).Inv := by
  have hlen : (running c 0 bytes).progLen = bytes.length := by simp [running, State.placeCode]
  exact
    { config := hc
      regs_fit := fun r => by rw [show (running c 0 bytes).reg r = 0 from State.resetWith_reg c [] r]; exact fitsCell_zero _
      labels_bound := fun j => by
        rw [show (running c 0 bytes).label j = 0 from State.resetWith_label c [] j]; exact Nat.zero_le _
      labels_unset := fun j _ => State.resetWith_label c [] j
      store_form := Memory.writeBytes_wf [] 0 bytes rfl
      store_listed := fun k => by
        rw [hlen, show (running c 0 bytes).prog = Memory.writeBytes [] 0 bytes from rfl, Memory.read_writeBytes]
        by_cases hk : k < bytes.length
        · simp [hk]
        · simp [hk]
      store_bound := by rw [hlen]; exact hl
      pc_bound := Nat.zero_le _
      token_len := Nat.zero_le _
      token_clear := fun _ => ⟨rfl, rfl⟩
      token_bits := fun _ _ => BitVec.getLsbD_zero
      token_done := fun _ => rfl
      not_started := fun h => by cases h
      no_fault := fun _ => ⟨rfl, rfl, rfl⟩
      fault_cause := fun h => by cases h
      fault_pos := fun h => by cases h
      fault_value := fitsCell_zero _ }

/-- EveryStepKeepsTheInvariant, InvariantStatesAlwaysStep, ValuesFitTheirWidths: an executing state with the invariant, its
store full. -/
theorem witness_invariant : jumping.Inv :=
  running_inv (Config.defaults 2) [43, 0] (by decide) (by decide)

/-- EveryStepKeepsTheInvariant: it steps. -/
theorem witness_invariant_steps : jumping.Inv ∧ ∃ t, step jumping = .next t :=
  ⟨witness_invariant, _, rfl⟩

/-- ResetStateMeetsTheInvariant, at the least admitted REG_W and PROG_MAX. -/
theorem witness_config_wellFormed : ({ Config.defaults 1 with regW := 9, delimiters := [] } : Config).wellFormed = true := by
  decide

/-- ResetTransferResetsInAnyPhase. -/
theorem witness_reset_transfer : ∀ p ∈ [Phase.tokenize, .execute, .halted, .faulted],
    ({ running small 0 [0] with phase := p, pending := [.reset, .endInput] } : State).pending = [.reset, .endInput] := by
  decide

/-- TokenBitsComparePairs, at the first and the last pair. -/
theorem witness_token_bits : (ascii "gg99gz91XXxyZZzz").length = 16 ∧ 0 < 8 ∧ 7 < 8 := by decide

/-- CanonicalTextDecodesToItsBytes, CanonicalTextLoadsTheProgram: the default delimiters and a store that is just filled. -/
theorem witness_canonical_text : 0x20 ∈ (Config.defaults 3).delimiters ∧ 0x61 ∉ (Config.defaults 3).delimiters ∧
    0x62 ∉ (Config.defaults 3).delimiters ∧
    (encodeAll [.printReg 255, .halt]).length ≤ (Config.defaults 3).progMax := by decide

/-- AssembledLinesAreInstructions: one line of each kind. -/
theorem witness_assembled : asmLine "" = some [] ∧ asmLine ".byte 3" = some [3] ∧
    asmLine "JUMPTRUE 255, r0, L9" = some (encode (.jumptrue 255 0 9)) := by decide

/-- TokenByteIsPaired: its three clauses, at the first and last offsets of each. -/
theorem witness_token_byte : (0x61 : Byte) ∉ small.delimiters ∧ ∀ k ∈ [0, 14, 1, 15, 16],
    (scanning small 0 k 0x61 0 [.putByte 0x61]).phase = .tokenize ∧
      (scanning small 0 k 0x61 0 [.putByte 0x61]).pending = [.putByte 0x61] ∧
      (scanning small 0 k 0x61 0 [.putByte 0x61]).tkLen = k ∧
      (k ≠ 16 ∧ k % 2 = 0 ∨ k ≠ 16 ∧ k % 2 = 1 ∨ k = 16) := by decide

/-- DelimiterEndsTheToken: its four clauses: between tokens; a last free byte; a full store; 1 and 15 bytes. -/
theorem witness_delimiter : (0x0A : Byte) ∈ small.delimiters ∧
    (scanning (Config.defaults 2) 0 0 0 0 [.putByte 0x0A]).tkLen = 0 ∧
    (scanning (Config.defaults 2) 1 16 0 0 [.putByte 0x0A]).tkLen = 16 ∧
    (scanning (Config.defaults 2) 1 16 0 0 [.putByte 0x0A]).progLen ≠ 2 ∧
    (scanning (Config.defaults 2) 2 16 0 0 [.putByte 0x0A]).progLen = 2 ∧
    (scanning (Config.defaults 2) 2 15 0 0 [.putByte 0x0A]).tkLen ≠ 16 ∧
    (scanning (Config.defaults 2) 2 1 0 0 [.putByte 0x0A]).tkLen ≠ 0 := by decide

/-- EndInputStartsExecution: the same four. -/
theorem witness_end_input : (scanning small 0 0 0 0 [.endInput]).phase = .tokenize ∧
    (scanning small 0 0 0 0 [.endInput]).pending = [.endInput] ∧
    (scanning (Config.defaults 2) 1 16 0 0 [.endInput]).progLen ≠ 2 ∧
    (scanning (Config.defaults 2) 2 16 0 0 [.endInput]).progLen = 2 ∧
    (scanning small 0 1 0 0 [.endInput]).tkLen ≠ 0 ∧ (scanning small 0 15 0 0 [.endInput]).tkLen ≠ 16 := by decide

/-- InputIsTakenOnlyWhileTokenizing: an executing, a halted and a waiting core. -/
theorem witness_input_waits :
    (after (step { jumping with pending := [] })).isSome = true ∧
      ({ jumping with pending := [.putByte 0x61] } : State).phase = .execute ∧
      ({ jumping with phase := .halted, pending := [.endInput] } : State).phase = .halted ∧
      (∀ y ∈ [HostTransfer.endInput], y ≠ .reset ∧ y ≠ .idle) ∧
      State.reset.phase = .tokenize ∧ State.reset.pending = [] := by
  decide

/-- TokenizerPacksOneToken: W1's token and a newline, with one byte of room. -/
theorem witness_packs_token :
    tokenWellFormed (Config.defaults 2) (ascii "gg99gz91XXxyZZzz") = true ∧ (0x0A : Byte) ∈ (Config.defaults 2).delimiters ∧
      (scanning (Config.defaults 2) 1 0 0 0 ((ascii "gg99gz91XXxyZZzz").map .putByte ++ [.putByte 0x0A])).progLen < 2 := by
  decide

/-- StepRunsTheDecodedInstruction: the instruction ends where the program does, with and without an idle entry. -/
theorem witness_step_runs : jumping.phase = .execute ∧ jumping.prog.readBytes jumping.pc 2 = some [43, 0] ∧
    decode [43, 0] = .ok (.jumpImm 0, []) ∧ jumping.pc + 2 ≤ jumping.progLen ∧ jumping.hostQuiet ∧
    ({ jumping with pending := [.idle] } : State).pending = [.idle] :=
  ⟨rfl, rfl, rfl, by decide, hostQuiet_nil rfl, rfl⟩

/-- TokenizerStepsLeaveTheExecutorAlone: a core at reset and one that has faulted, each with input to come. -/
theorem witness_tokenizer_step :
    (State.resetWith small [.putByte 0x61]).Inv ∧ (∃ t, step (State.resetWith small [.putByte 0x61]) = .next t) ∧
      ({ jumping.raise .unknownOpcode 43 0 with pending := [.endInput] } : State).Inv ∧
      ∃ t, step { jumping.raise .unknownOpcode 43 0 with pending := [.endInput] } = .next t :=
  ⟨{ config := by decide
     regs_fit := fun r => by rw [State.resetWith_reg]; exact fitsCell_zero _
     labels_bound := fun j => by rw [State.resetWith_label]; exact Nat.zero_le _
     labels_unset := fun j _ => State.resetWith_label _ _ j
     store_form := rfl
     store_listed := fun k => by simp
     store_bound := Nat.zero_le _
     pc_bound := Nat.zero_le _
     token_len := Nat.zero_le _
     token_clear := fun _ => ⟨rfl, rfl⟩
     token_bits := fun _ _ => BitVec.getLsbD_zero
     token_done := fun _ => rfl
     not_started := fun _ => ⟨rfl, rfl, State.resetWith_reg _ _,
       fun j => ⟨State.resetWith_label _ _ j, State.resetWith_isLabelSet _ _ j⟩⟩
     no_fault := fun _ => ⟨rfl, rfl, rfl⟩
     fault_cause := fun h => by cases h
     fault_pos := fun h => by cases h
     fault_value := fitsCell_zero _ },
    ⟨_, rfl⟩,
    { witness_invariant with
      token_done := fun _ => rfl
      not_started := fun h => by cases h
      no_fault := fun h => absurd rfl h
      fault_cause := fun _ => by decide
      fault_pos := fun _ => rfl
      fault_value := ⟨by decide, by decide⟩ },
    ⟨_, rfl⟩⟩

/-- StepMakesTheChecksInOrder: a state with the invariant in each case: the empty program, an unlisted byte, an unsupported
opcode as the last byte, an operand just missing, and an instruction that ends where the program does. -/
theorem witness_checks : (∀ bytes ∈ ([[], [3], [44], [1, 5], [43, 0]] : List (List Byte)),
      (running (Config.defaults 2) 0 bytes).Inv ∧ (running (Config.defaults 2) 0 bytes).phase = .execute ∧
        (running (Config.defaults 2) 0 bytes).hostQuiet) ∧
    (running small 0 []).progLen ≤ 0 ∧ (running small 0 [1, 5]).progLen ≤ 0 + 2 ∧ 0 + 1 < jumping.progLen :=
  ⟨fun bytes h => ⟨running_inv _ _ (by decide) (by revert bytes; decide), rfl, hostQuiet_nil rfl⟩, by decide⟩

/-- FetchPastTheEndFaults: the empty program, and pc just at N. -/
theorem witness_fetch_past : (running small 0 []).progLen ≤ 0 ∧
    ({ jumping with pc := 2 } : State).progLen ≤ ({ jumping with pc := 2 } : State).pc ∧
    ({ jumping with pc := 2 } : State).hostQuiet :=
  ⟨by decide, by decide, hostQuiet_nil rfl⟩

/-- UnlistedByteFaults: 3 and 255 as the last byte of the program. -/
theorem witness_unlisted : ∀ op ∈ ([3, 45, 255] : List Byte), (running small 0 [op]).prog.read 0 = some op ∧
    0 < (running small 0 [op]).progLen ∧ op.toNat ∉ [0, 1, 2, 10, 11, 20, 21, 40, 41, 42, 43, 44] := by decide

/-- UnsupportedOpcodeFaultsBeforeItsOperands: both opcodes, as the last byte. -/
theorem witness_unsupported : (running small 0 [44]).prog.read 0 = some 44 ∧
    (running { small with labelsetRegMode := .unsupported } 0 [40]).prog.read 0 = some 40 ∧
    0 < (running small 0 [44]).progLen := by decide

/-- TruncatedInstructionFaults: one operand of two, and none of one. -/
theorem witness_truncated : arity? 1 = some 2 ∧ (running small 0 [1, 5]).progLen ≤ 0 + 2 ∧ arity? 40 = some 1 ∧
    (running small 0 [40]).progLen ≤ 0 + 1 ∧ small.labelsetRegMode ≠ .unsupported := by decide

/-- PcAdvancesPastTheInstruction: its three clauses. -/
theorem witness_pc : (∃ t, exec (.printReg 0) jumping = .next t ∧ t.phase = .execute) ∧
    (∃ t, exec (.jumpImm 0) jumping = .next t ∧ t.phase = .execute) ∧
    (∃ t, exec .halt jumping = .next t ∧ t.phase ≠ .execute) ∧
    ∃ t, exec (.jumptrue 0 0 0) jumping = .next t ∧ t.phase ≠ .execute :=
  ⟨⟨_, rfl, rfl⟩, ⟨_, rfl, rfl⟩, ⟨_, rfl, by decide⟩, ⟨_, rfl, by decide⟩⟩

/-- PhasesFollowTheRun, EndedRunsStayAsTheyAre: a step from each phase with no Reset to come. -/
theorem witness_phases : ∀ p ∈ [Phase.tokenize, .execute, .halted, .faulted],
    (after (step { running small 0 [0] with phase := p, pending := [.endInput, .idle] })).isSome = true ∧
      ∀ x ∈ [HostTransfer.endInput, .idle], x ≠ .reset := by decide

/-- ExecutorFaultsArePrecise: a step into FAULTED. -/
theorem witness_precise_fault :
    ∃ t, step (running small 0 [99]) = .next t ∧ t.phase = .faulted ∧ (running small 0 [99]).hostQuiet :=
  ⟨_, rfl, rfl, hostQuiet_nil rfl⟩

/-- FaultTableHolds: a step into each of the eight causes. -/
theorem witness_fault_table :
    ([scanning small 0 15 0 0 [.endInput], scanning (Config.defaults 2) 2 16 0 0 [.endInput], running small 0 [3],
        running small 0 [], running small 0 [44], (running small 0 [42, 0]).setReg 0 256,
        running { small with unsetLabelPolicy := .fault } 0 [43, 5],
        (running (nine .fault .zero) 0 [10, 1, 0]).setReg 0 255].map fun s =>
      ((after (step s)).map fun t => (t.phase, t.faultCause.code))) =
      [1, 2, 3, 4, 5, 6, 7, 8].map fun c => some (.faulted, c) := by decide

/-- FaultTableHolds: the causes IndexBoundsError and UnsetLabel each through their other instruction, and the operand
bound. -/
theorem witness_fault_table_others :
    ([(running small 0 [40, 0]).setReg 0 (-1),
        (running { Config.defaults 255 with labelsetRegMode := .valueFromReg } 0 [40, 0]).setReg 0 256,
        (running { small with unsetLabelPolicy := .fault } 0 [42, 9]), running small 0 [1, 5],
        running { small with labelsetRegMode := .unsupported } 0 [40, 0]].map fun s =>
      ((after (step s)).map fun t => (t.faultCause.code, t.faultValue))) =
      [some (6, -1), some (6, 256), some (7, 0), some (4, 2), some (5, 40)] := by decide

/-- DefaultParametersNeverRaiseSevenOrEight. -/
theorem witness_default_parameters : jumping.cfg.addOverflow = .wrap ∧ jumping.cfg.unsetLabelPolicy = .zero ∧
    jumping.faultCause = .none ∧ ∃ t, runSteps 3 jumping = .next t :=
  ⟨rfl, rfl, rfl, _, rfl⟩

/-- EndedRunsHaveTheirResult. -/
theorem witness_result : (({ jumping with phase := .faulted, out := [0x41] } : State).result?.map fun x =>
    (x.out, x.exitCode)) = some ([0x41], 1) := by decide

/-- AddsFollowTheirRule: the greatest and least sums that fit nine bits, and the first that do not, for both instructions
and both policies. -/
theorem witness_adds : 9 ≤ (nine .fault .sign).regW ∧
    fitsCell (nine .fault .sign).regW (((running (nine .fault .sign) 0 []).setReg 0 254).reg 0 + 1) ∧
    fitsCell (nine .fault .sign).regW (((running (nine .fault .sign) 0 []).setReg 0 (-128)).reg 0 + (-128)) ∧
    ¬ fitsCell (nine .wrap .sign).regW (((running (nine .wrap .sign) 0 []).setReg 0 255).reg 0 + 1) ∧
    ¬ fitsCell (nine .fault .sign).regW
      ((((running (nine .fault .sign) 0 []).setReg 0 (-256)).setReg 1 (-1)).reg 0 +
        (((running (nine .fault .sign) 0 []).setReg 0 (-256)).setReg 1 (-1)).reg 1) ∧
    (nine .wrap .sign).addOverflow = .wrap ∧ (nine .fault .sign).addOverflow = .fault := by decide

/-- WrappingAdditionsCommute: two registers added to a third. -/
theorem witness_commute : 9 ≤ (nine .wrap .zero).regW ∧ (nine .wrap .zero).addOverflow = .wrap ∧ (1 : Byte) ≠ 0 ∧
    (2 : Byte) ≠ 0 ∧ (∃ t u, exec (.addReg 1 0) (running (nine .wrap .zero) 0 []) = .next t ∧ exec (.addReg 2 0) t = .next u) ∧
    ∃ t u, exec (.addReg 2 0) (running (nine .wrap .zero) 0 []) = .next t ∧ exec (.addReg 1 0) t = .next u :=
  ⟨by decide, rfl, by decide, by decide, ⟨_, _, rfl, rfl⟩, _, _, rfl, rfl⟩

/-- PrintRegAppendsAtMostTwelveBytes: 0, 9 and the longest decimal. -/
theorem witness_print_length : (∃ t, exec (.printReg 0) (jumping.setReg 0 9) = .next t) ∧
    0 ≤ jumping.reg 0 ∧ (jumping.setReg 0 9).reg 0 ≤ 9 ∧ jumping.cfg.regW = 32 ∧
    fitsCell 32 ((jumping.setReg 0 (-2147483648)).reg 0) :=
  ⟨⟨_, rfl⟩, by decide⟩

/-- LabelsetRegFollowsItsMode: the ends of both ranges, and the values just outside. -/
theorem witness_labelset_reg : (jumping.setReg 1 255).reg 1 = (255 : Byte).toNat ∧ jumping.reg 1 = (0 : Byte).toNat ∧
    (jumping.setReg 1 2).reg 1 ≤ jumping.cfg.progMax ∧ ¬ (jumping.setReg 1 3).reg 1 ≤ jumping.cfg.progMax ∧
    ¬ (jumping.setReg 1 256).reg 1 ≤ 255 ∧ ¬ 0 ≤ (jumping.setReg 1 (-1)).reg 1 ∧
    jumping.cfg.labelsetRegMode = .indexFromReg := by decide

/-- JumpImmGoesToTheLabel, JumpRegGoesThroughTheNamedLabel: a label written and one not, under FAULT. -/
theorem witness_jumps : (running { small with unsetLabelPolicy := .fault } 0 []).isLabelSet 255 = false ∧
    ((running { small with unsetLabelPolicy := .fault } 0 []).setLabel 255 7).isLabelSet 255 = true ∧
    ((running { small with unsetLabelPolicy := .fault } 0 []).setReg 9 255).reg 9 = (255 : Byte).toNat ∧
    jumping.cfg.unsetLabelPolicy = .zero ∧ ¬ (jumping.setReg 0 256).reg 0 ≤ 255 ∧
    ¬ 0 ≤ (jumping.setReg 0 (-1)).reg 0 := by decide

/-- JumpImmGoesToTheLabel: a label never written, under ZERO, in a state with the invariant. -/
theorem witness_jump_unset_zero : jumping.Inv ∧ jumping.cfg.unsetLabelPolicy = .zero ∧ jumping.isLabelSet 0 = false ∧
    jumping.isLabelSet 255 = false :=
  ⟨witness_invariant, by decide⟩

/-- NoInstructionWritesTheProgramStore: next states that go on, halt and fault. -/
theorem witness_no_store_write : (∃ t, exec (.storeImm 1 1) jumping = .next t ∧ t.phase ≠ .faulted) ∧
    (∃ t, exec .halt jumping = .next t ∧ t.phase ≠ .faulted) ∧ ∃ t, exec (.jumptrue 0 0 0) jumping = .next t :=
  ⟨⟨_, rfl, by decide⟩, ⟨_, rfl, by decide⟩, _, rfl⟩

/-- OnlyStoresAndAddsWriteRegisters: a register that changes. -/
theorem witness_register_changes : ∃ t, exec (.storeImm 1 255) jumping = .next t ∧ t.reg 255 ≠ jumping.reg 255 :=
  ⟨_, rfl, by decide⟩

/-- OnlyLabelsetsWriteLabels: a label that changes, and a mark that changes alone. -/
theorem witness_label_changes : (∃ t, exec (.labelsetImm 255) jumping = .next t ∧ t.label 255 ≠ jumping.label 255) ∧
    ∃ t, exec (.labelsetReg 0) { jumping with cfg := { jumping.cfg with labelsetRegMode := .valueFromReg } } = .next t ∧
      t.label 0 = jumping.label 0 ∧ t.isLabelSet 0 ≠ jumping.isLabelSet 0 :=
  ⟨⟨_, rfl, by decide⟩, _, rfl, by decide⟩

/-- OnlyPrintsWriteOutput: both cases. -/
theorem witness_output : (∃ t, exec (.printChar 0) jumping = .next t ∧ t.out ≠ jumping.out) ∧
    ∃ t, exec (.jumpImm 0) jumping = .next t ∧ t.out = jumping.out :=
  ⟨⟨_, rfl, by decide⟩, _, rfl, rfl⟩

/-- OutputOnlyGrows, LabelFlagsAreUnobservableUnderZero, TokenizerStateIsHiddenFromExecution: a run of steps. -/
theorem witness_runs : (∀ x ∈ jumping.pending, x ≠ .reset) ∧ jumping.cfg.unsetLabelPolicy = .zero ∧
    jumping.phase ≠ .tokenize ∧ ∃ t, runSteps 2 jumping = .next t :=
  ⟨by decide, rfl, by decide, _, rfl⟩

/-- ARunThatHasJumpedNeverHalts: the program that jumps to itself, after its first jump. -/
theorem witness_jumped : jumping.Inv ∧ jumping.phase = .execute ∧ jumping.pc = 0 ∧ (∀ j, jumping.label j = 0) ∧
    jumping.pending = [] ∧ jumping.cfg.labelsetRegMode ≠ .valueFromReg ∧ runSteps 0 jumping = .next jumping ∧
    jumping.prog.readBytes jumping.pc 2 = some [43, 0] ∧ decode [43, 0] = .ok (.jumpImm 0, []) ∧
    jumping.pc + 2 ≤ jumping.progLen ∧ ∃ v, step jumping = .next v ∧ v.phase = .execute ∧ ∃ w, runSteps 2 v = .next w :=
  ⟨witness_invariant, rfl, rfl, fun j => State.resetWith_label (Config.defaults 2) [] j, rfl,
    by decide, rfl, rfl, rfl, by decide, _, rfl, rfl, _, rfl⟩

end Sys2Proof.Tests
end

/-! SUPPORT and proofs for the family of the state: reset, status, the executor's faults, the writers of the output. -/

namespace Sys2Proof.Machine

/-! ## The status views (R51 to R53) -/

/-- The three fields of STATUS (R53) read back from their concatenation, whatever they hold. -/
theorem statusBits_extract : ∀ (e : BitVec 1) (p : BitVec 2),
    ((0 : BitVec 5) ++ e ++ p).extractLsb' 0 2 = p ∧ ((0 : BitVec 5) ++ e ++ p).getLsbD 2 = (e == 1) ∧
      ((0 : BitVec 5) ++ e ++ p).extractLsb' 3 5 = 0 := by decide

theorem State.exitCode_eq_one_iff (s : State) : s.exitCode = 1 ↔ s.phase = .faulted := by
  rw [State.exitCode]
  split <;> simp [*]

theorem State.exitCode_eq_zero_iff (s : State) : s.exitCode = 0 ↔ s.phase ≠ .faulted := by
  rw [State.exitCode]
  split <;> simp [*]

/-! ## Faults of the executor (R310, R44) -/

/-- An instruction that leads into FAULTED has raised one of its own faults at pc, and done nothing else. -/
theorem exec_faulted {i : Instr} {s t : State} (hs : s.phase ≠ .faulted) (h : exec i s = .next t)
    (ht : t.phase = .faulted) : ∃ c v, OwnFault i s c v ∧ t = s.raise c v s.pc := by
  obtain ⟨u, hu, hcases⟩ := exec_cases i s
  cases hu.symm.trans h
  rcases hcases with ⟨-, rfl⟩ | ⟨rd, v, -, rfl, -⟩ | ⟨text, rfl, -⟩ | ⟨j, v, rfl, -⟩ | ⟨j, rfl, -⟩ | ⟨c, v, rfl, hown⟩
  · cases ht
  · exact absurd ht hs
  · exact absurd ht hs
  · exact absurd ht hs
  · exact absurd ht hs
  · exact ⟨c, v, hown, rfl⟩

/-- A step of the executor that leads into FAULTED has raised a fault at pc, and done nothing else. -/
theorem execStep_faulted {s t : State} (hs : s.phase ≠ .faulted) (h : execStep s = .next t)
    (ht : t.phase = .faulted) : ∃ c v, c ≠ .none ∧ t = s.raise c v s.pc := by
  rcases execStep_cases s with ⟨-, e⟩ | ⟨op, -, -, -, e⟩ | ⟨op, -, -, -, e⟩ | ⟨op, a, -, -, -, -, -, e⟩ |
    ⟨i, -, -, -, -, e⟩ | ⟨-, e⟩
  · cases e.symm.trans h; exact ⟨_, _, by simp, rfl⟩
  · cases e.symm.trans h; exact ⟨_, _, by simp, rfl⟩
  · cases e.symm.trans h; exact ⟨_, _, by simp, rfl⟩
  · cases e.symm.trans h; exact ⟨_, _, by simp, rfl⟩
  · obtain ⟨c, v, hown, rfl⟩ := exec_faulted hs (e.symm.trans h) ht
    exact ⟨c, v, hown.cause_ne_none, rfl⟩
  · cases e.symm.trans h

/-! ## The writers of the output (R50) -/

/-- A positive number has a digit: the last one it writes is n % 10. -/
theorem digits_ne_nil {m : Nat} (h : m ≠ 0) : digits m ≠ [] := by
  rw [digits, digitsOnto_step h, digitsOnto_append]
  simp

/-- Dec(v) is never empty (R202). -/
theorem decimal_ne_nil (v : Int) : decimal v ≠ [] := by
  rw [decimal]
  split
  · simp
  · split
    · exact digits_ne_nil (Int.natAbs_ne_zero.2 ‹_›)
    · simp

/-- An instruction that is no print leaves OUT as it is. -/
theorem exec_out_of_not_print {i : Instr} {s t : State} (h : exec i s = .next t) (hreg : ∀ r, i ≠ .printReg r)
    (hchar : ∀ c, i ≠ .printChar c) : t.out = s.out := by
  obtain ⟨u, hu, hcases⟩ := exec_cases i s
  cases hu.symm.trans h
  rcases hcases with ⟨-, rfl⟩ | ⟨rd, v, -, rfl, -⟩ | ⟨text, -, ⟨r, hi, -⟩ | ⟨c, hi, -⟩⟩ | ⟨j, v, rfl, -⟩ | ⟨j, rfl, -⟩ |
    ⟨c, v, rfl, -⟩
  · rfl
  · rfl
  · exact absurd hi (hreg r)
  · exact absurd hi (hchar c)
  · rfl
  · rfl
  · rfl

theorem exec_printReg_out {r : Byte} {s t : State} (h : exec (.printReg r) s = .next t) :
    t.out = s.out ++ decimal (s.reg r) ++ [s.cfg.newline] := by
  cases h
  exact (printLine_spec _ s).1

theorem exec_printChar_out {c : Byte} {s t : State} (h : exec (.printChar c) s = .next t) :
    t.out = s.out ++ [c] ++ [s.cfg.newline] := by
  cases h
  exact (printLine_spec _ s).1

/-! ## The obligations -/

/-- Settles O31: the one way into FAULTED from EXECUTE is a raise at pc. -/
theorem executorFaultsArePrecise : Obligations.ExecutorFaultsArePrecise := by
  intro s t hphase hquiet hstep ht
  rw [step_execute hquiet hphase] at hstep
  obtain ⟨c, v, hc, rfl⟩ := execStep_faulted (by simp [hphase]) hstep ht
  exact ⟨hc, s.raise_faultedFrom c v s.pc⟩

/-- Settles O53, by what an instruction is: PRINT_REG, PRINT_CHAR, or no print. -/
theorem onlyPrintsWriteOutput : Obligations.OnlyPrintsWriteOutput := by
  refine ⟨State.resetWith_out, fun i s t h => ?_⟩
  by_cases hreg : ∃ r, i = .printReg r
  · obtain ⟨r, rfl⟩ := hreg
    exact .inr ⟨.inl ⟨r, rfl⟩, decimal (s.reg r), decimal_ne_nil _, exec_printReg_out h⟩
  by_cases hchar : ∃ c, i = .printChar c
  · obtain ⟨c, rfl⟩ := hchar
    exact .inr ⟨.inr ⟨c, rfl⟩, [c], by simp, exec_printChar_out h⟩
  push Not at hreg hchar
  exact .inl ⟨exec_out_of_not_print h hreg hchar, hreg, hchar⟩

/-- Settles O1: the reset state's own lemmas, one for each row of R62. -/
theorem resetGivesTheResetTable : Obligations.ResetGivesTheResetTable := fun c later =>
  ⟨State.resetWith c later, rfl, State.resetWith_cfg c later, State.resetWith_reg c later,
    fun j => ⟨State.resetWith_label c later j, State.resetWith_isLabelSet c later j⟩,
    rfl, rfl, rfl, rfl, rfl, rfl, rfl, rfl, rfl, rfl, rfl, rfl⟩

/-- Settles O34: the bits of STATUS for any EXIT and PHASE, and what EXIT says of the phase. -/
theorem statusShowsPhaseAndExit : Obligations.StatusShowsPhaseAndExit := by
  refine ⟨⟨rfl, rfl, rfl, rfl⟩, fun s => ?_⟩
  obtain ⟨hphase, hexit, hzero⟩ := statusBits_extract s.exitCode s.phase.code
  exact ⟨hphase, hexit, hzero, s.exitCode_eq_one_iff, s.exitCode_eq_zero_iff, rfl, rfl, rfl, rfl, rfl⟩

end Sys2Proof.Machine

/-! SUPPORT and proofs for the family of the memory: no instruction writes the program store. -/

namespace Sys2Proof.Machine

/-! ## What an instruction leaves alone (R86) -/

/-- The frame of HALT (R150). -/
theorem State.halt_sameAround_sameFault (s : State) : SameAround s s.halt ∧ SameFault s s.halt :=
  ⟨SameAround.refl s, rfl, rfl, rfl⟩

/-- The three ways an instruction ends: it goes on with its phase and fault registers, it is HALT, or it raises a fault. -/
theorem exec_goes_on_halts_or_raises {i : Instr} {s t : State} (h : exec i s = .next t) :
    SameRunning s t ∨ (i = .halt ∧ t = s.halt) ∨ ∃ c v, t = s.raise c v s.pc := by
  obtain ⟨u, hu, hcases⟩ := exec_cases i s
  cases hu.symm.trans h
  rcases hcases with hhalt | ⟨rd, v, -, rfl, -⟩ | ⟨text, rfl, -⟩ | ⟨j, v, rfl, -⟩ | ⟨j, rfl, -⟩ | ⟨c, v, ht, -⟩
  · exact .inr (.inl hhalt)
  · obtain ⟨-, -, -, -, -, hrun⟩ := storeValue_spec rd v s
    exact .inl hrun
  · obtain ⟨-, -, -, -, hrun⟩ := printLine_spec text s
    exact .inl hrun
  · obtain ⟨-, -, -, -, -, -, hrun⟩ := labelSetTo_spec j v s
    exact .inl hrun
  · obtain ⟨-, -, -, -, hrun⟩ := s.jump_spec (s.label j)
    exact .inl hrun
  · exact .inr (.inr ⟨c, v, ht⟩)

/-! ## The obligation -/

/-- Settles O50, by how the instruction ends: each of the three ways leaves everything around it alone. -/
theorem noInstructionWritesTheProgramStore : Obligations.NoInstructionWritesTheProgramStore := by
  intro i s t h
  rcases exec_goes_on_halts_or_raises h with ⟨haround, hphase, hfault⟩ | ⟨hi, rfl⟩ | ⟨c, v, rfl⟩
  · exact ⟨haround, fun _ => hfault, .inl hphase⟩
  · obtain ⟨haround, hfault⟩ := s.halt_sameAround_sameFault
    exact ⟨haround, fun _ => hfault, .inr (.inr ⟨rfl, hi⟩)⟩
  · obtain ⟨hphase, -, -, -, -, -, -, -, haround⟩ := s.raise_faultedFrom c v s.pc
    exact ⟨haround, fun hne => absurd hphase hne, .inr (.inl hphase)⟩

end Sys2Proof.Machine

/-! SUPPORT and proofs for the family of the encoding: the bits of a token's byte, and the tokenizer's steps. -/

namespace Sys2Proof

/-! ## The bits of a token's byte (R102, R73) -/

/-- The first pair's bit: 1 exactly when its bytes are equal. -/
theorem decodeToken_getLsbD_zero (a b : Byte) (rest : List Byte) :
    (decodeToken (a :: b :: rest)).getLsbD 0 = decide (a = b) := by
  by_cases h : a = b <;> simp [decodeToken, h]

/-- The later pairs' bits are those of the token after the first pair. -/
theorem decodeToken_getLsbD_succ (a b : Byte) (rest : List Byte) {i : Nat} (hi : i + 1 < 8) :
    (decodeToken (a :: b :: rest)).getLsbD (i + 1) = (decodeToken rest).getLsbD i := by
  have hflag : (if a = b then 1 else 0 : Byte).getLsbD (i + 1) = false := by
    by_cases h : a = b <;> simp [h]
  rw [decodeToken, BitVec.getLsbD_or, hflag, Bool.or_false, BitVec.getLsbD_shiftLeft]
  simp [-BitVec.getLsbD_eq_getElem, hi]

/-- Bit i compares the bytes of pair i, in a token of any length that has that pair. -/
theorem decodeToken_getLsbD_iff (t : List Byte) {i : Nat} (hi : i < 8) (hpair : 2 * i + 1 < t.length) :
    (decodeToken t).getLsbD i = true ↔ t[2 * i]? = t[2 * i + 1]? := by
  induction i generalizing t with
  | zero =>
    obtain _ | ⟨a, _ | ⟨b, rest⟩⟩ := t
    · simp at hpair
    · simp at hpair
    · rw [decodeToken_getLsbD_zero]
      simp
  | succ i ih =>
    obtain _ | ⟨a, _ | ⟨b, rest⟩⟩ := t
    · simp at hpair
    · simp at hpair
    · have hrest : 2 * i + 1 < rest.length := by simp only [List.length_cons] at hpair; omega
      rw [decodeToken_getLsbD_succ a b rest hi, ih rest (by omega) hrest]
      rfl

end Sys2Proof

namespace Sys2Proof.Machine

/-! ## An accepted byte that is no delimiter (R105) -/

theorem acceptByte_of_incomplete {b : Byte} {s : State} (hb : b ∉ s.cfg.delimiters) (h16 : s.tkLen ≠ 16) :
    acceptByte b s = packByte b s := by
  simpa [hb, h16] using acceptByte_cases b s

theorem acceptByte_of_seventeenth {b : Byte} {s : State} (hb : b ∉ s.cfg.delimiters) (h16 : s.tkLen = 16) :
    acceptByte b s = raiseFormatError 17 s := by
  simpa [hb, h16] using acceptByte_cases b s

theorem packByte_even {s : State} (b : Byte) (heven : s.tkLen % 2 = 0) :
    packByte b s = { s with tkFirst := b, tkLen := s.tkLen + 1 } := by
  simpa [heven] using packByte_cases b s

/-- At an odd offset only the pair's bit can change, and it is set when the pair's bytes are equal. -/
theorem packByte_odd {s : State} (b : Byte) (hodd : s.tkLen % 2 = 1) :
    ∃ acc, packByte b s = { s with tkAcc := acc, tkLen := s.tkLen + 1 } ∧
      ∀ i, i < 8 → acc.getLsbD i = (s.tkAcc.getLsbD i || (i == (s.tkLen - 1) / 2 && b == s.tkFirst)) := by
  rcases packByte_cases b s with ⟨heven, -⟩ | ⟨-, heq, e⟩ | ⟨-, hne, e⟩
  · omega
  · exact ⟨_, e, fun i hi => by rw [setBit_getLsbD _ _ _ hi, beq_iff_eq.2 heq, Bool.and_true]⟩
  · exact ⟨s.tkAcc, e, fun i _ => by rw [beq_eq_false_iff_ne.2 hne, Bool.and_false, Bool.or_false]⟩

/-! ## An accepted delimiter (R106) -/

theorem acceptByte_delimiter_between {b : Byte} {s : State} (hb : b ∈ s.cfg.delimiters) (h0 : s.tkLen = 0) :
    acceptByte b s = s := by
  simpa [hb, h0] using acceptByte_cases b s

theorem acceptByte_delimiter_of_room {b : Byte} {s : State} (hb : b ∈ s.cfg.delimiters) (h16 : s.tkLen = 16)
    (hroom : s.progLen ≠ s.cfg.progMax) : acceptByte b s = committed s := by
  simpa [hb, h16, hroom] using acceptByte_cases b s

theorem acceptByte_delimiter_of_full {b : Byte} {s : State} (hb : b ∈ s.cfg.delimiters) (h16 : s.tkLen = 16)
    (hfull : s.progLen = s.cfg.progMax) : acceptByte b s = raiseOutOfMemory s := by
  simpa [hb, h16, hfull] using acceptByte_cases b s

theorem acceptByte_delimiter_of_incomplete {b : Byte} {s : State} (hb : b ∈ s.cfg.delimiters) (h0 : s.tkLen ≠ 0)
    (h16 : s.tkLen ≠ 16) : acceptByte b s = raiseFormatError s.tkLen s := by
  simpa [hb, h0, h16] using acceptByte_cases b s

/-! ## The accepted end of input (R107) -/

theorem acceptEnd_between {s : State} (h0 : s.tkLen = 0) : acceptEnd s = s.startExecution := by
  simpa [h0] using acceptEnd_cases s

theorem acceptEnd_of_room {s : State} (h16 : s.tkLen = 16) (hroom : s.progLen ≠ s.cfg.progMax) :
    acceptEnd s = (committed s).startExecution := by
  simpa [h16, hroom] using acceptEnd_cases s

theorem acceptEnd_of_full {s : State} (h16 : s.tkLen = 16) (hfull : s.progLen = s.cfg.progMax) :
    acceptEnd s = raiseOutOfMemory s := by
  simpa [h16, hfull] using acceptEnd_cases s

theorem acceptEnd_of_incomplete {s : State} (h0 : s.tkLen ≠ 0) (h16 : s.tkLen ≠ 16) :
    acceptEnd s = raiseFormatError s.tkLen s := by
  simpa [h0, h16] using acceptEnd_cases s

/-! ## The faults of the tokenizer (R108, R110) -/

theorem raiseFormatError_faultedFrom (length : Nat) (s : State) :
    FaultedFrom s (raiseFormatError length s) .formatError length s.progLen :=
  s.raise_faultedFrom _ _ _

theorem raiseOutOfMemory_faultedFrom (s : State) :
    FaultedFrom s (raiseOutOfMemory s) .outOfMemory s.cfg.progMax s.progLen :=
  s.raise_faultedFrom _ _ _

/-! ## The obligations -/

/-- Settles O10: the comparison of pair i, for the eight pairs of a whole token. -/
theorem tokenBitsComparePairs : Obligations.TokenBitsComparePairs := fun t i ht hi =>
  decodeToken_getLsbD_iff t hi (by omega)

/-- Settles O14: the byte is packed at an even or an odd offset of an incomplete token, or it is a 17th byte. -/
theorem tokenByteIsPaired : Obligations.TokenByteIsPaired := by
  intro s b later hphase hpend hb
  rw [step_putByte hphase hpend]
  have hpacked (h16 : s.tkLen ≠ 16) :
      acceptByte b { s with pending := later } = packByte b { s with pending := later } :=
    acceptByte_of_incomplete hb h16
  refine ⟨fun h16 heven => ?_, fun h16 hodd => ?_, fun h16 => ?_⟩
  · rw [hpacked h16]
    exact congrArg _ (packByte_even b heven)
  · rw [hpacked h16]
    obtain ⟨acc, hpack, hbits⟩ := packByte_odd (s := { s with pending := later }) b hodd
    exact ⟨acc, congrArg _ hpack, hbits⟩
  · exact ⟨_, congrArg _ (acceptByte_of_seventeenth hb h16), raiseFormatError_faultedFrom 17 _⟩

/-- Settles O15: the four cases of a delimiter; what a commit appends is one write of the program store at index N. -/
theorem delimiterEndsTheToken : Obligations.DelimiterEndsTheToken := by
  intro s b later hphase hpend hb
  rw [step_putByte hphase hpend]
  refine ⟨fun h0 => ?_, fun h16 hroom => ?_, fun h16 hfull => ?_, fun h0 h16 => ?_⟩
  · exact congrArg _ (acceptByte_delimiter_between hb h0)
  · exact ⟨_, congrArg _ (acceptByte_delimiter_of_room hb h16 hroom), Memory.write_wf _ _ _, Memory.read_write _ _ _⟩
  · exact ⟨_, congrArg _ (acceptByte_delimiter_of_full hb h16 hfull), raiseOutOfMemory_faultedFrom _⟩
  · exact ⟨_, congrArg _ (acceptByte_delimiter_of_incomplete hb h0 h16), raiseFormatError_faultedFrom s.tkLen _⟩

/-- Settles O16: the four cases of the end of input; its commit is a delimiter's, with the start of execution after it. -/
theorem endInputStartsExecution : Obligations.EndInputStartsExecution := by
  intro s later hphase hpend
  rw [step_endInput hphase hpend]
  refine ⟨fun h0 => ?_, fun h16 hroom => ?_, fun h16 hfull => ?_, fun h0 h16 => ?_⟩
  · exact congrArg _ (acceptEnd_between h0)
  · exact ⟨_, congrArg _ (acceptEnd_of_room h16 hroom), Memory.write_wf _ _ _, Memory.read_write _ _ _⟩
  · exact ⟨_, congrArg _ (acceptEnd_of_full h16 hfull), raiseOutOfMemory_faultedFrom _⟩
  · exact ⟨_, congrArg _ (acceptEnd_of_incomplete h0 h16), raiseFormatError_faultedFrom s.tkLen _⟩

end Sys2Proof.Machine

/-! SUPPORT and proofs for the family of dispatch and HALT: the executor's checks in order, and the end of a run. -/

namespace Sys2Proof.Machine

/-! ## The executor's checks, one equation each (R141 to R144) -/

theorem execStep_of_past_end {s : State} (h : s.progLen ≤ s.pc) :
    execStep s = .next (s.raise .programBoundsError s.pc s.pc) := by
  simp [execStep, h]

/-- Below N the opcode byte at pc decides. -/
theorem execStep_of_read {s : State} {op : Byte} (hpc : s.pc < s.progLen) (hop : s.prog.read s.pc = some op) :
    execStep s = execOpcode op s := by
  simp [execStep, Nat.not_le.2 hpc, hop]

theorem execOpcode_of_unlisted {op : Byte} (s : State) (h : op.toNat ∉ listedCodes) :
    execOpcode op s = .next (s.raise .unknownOpcode op.toNat s.pc) := by
  simp [execOpcode, (arity?_eq_none_iff op).2 h]

/-- The unsupported opcodes are opcodes of the map (R143: listed, and not unknown). -/
theorem arity?_of_unsupported {c : Config} {op : Byte} (h : unsupported c op = true) : ∃ a, arity? op = some a := by
  rcases (unsupported_iff c op).1 h with rfl | ⟨rfl, -⟩
  · exact ⟨3, rfl⟩
  · exact ⟨1, rfl⟩

theorem execOpcode_of_unsupported {op : Byte} {s : State} (h : unsupported s.cfg op = true) :
    execOpcode op s = .next (s.raise .unsupportedOpcode op.toNat s.pc) := by
  obtain ⟨a, ha⟩ := arity?_of_unsupported h
  simp [execOpcode, ha, h, raiseUnsupported]

theorem execOpcode_of_truncated {op : Byte} {a : Nat} {s : State} (ha : arity? op = some a)
    (hu : unsupported s.cfg op ≠ true) (hn : s.progLen ≤ s.pc + a) :
    execOpcode op s = .next (s.raise .programBoundsError s.progLen s.pc) := by
  simp [execOpcode, ha, hu, execOperands, hn]

/-! ## The instruction at pc (R144, R145) -/

/-- Where the store lists every byte below N, an opcode at pc whose operands end below N is the first byte of an instruction's
encoding. -/
theorem exists_instr_at_pc {s : State} {op : Byte} {a : Nat}
    (hlisted : ∀ k, (s.prog.read k).isSome = true ↔ k < s.progLen)
    (hop : s.prog.read s.pc = some op) (ha : arity? op = some a) (hn : s.pc + a < s.progLen) :
    ∃ i : Instr, i.opcode = op ∧ i.arity = a ∧ s.prog.readBytes (s.pc + 1) a = some i.operands := by
  obtain ⟨bs, hbs⟩ := Memory.readBytes_isSome (m := s.prog) (a := s.pc + 1) (n := a) fun k _ hk =>
    (hlisted k).2 (by omega)
  obtain ⟨i, hi⟩ := assemble_of_arity ha (Memory.readBytes_length hbs)
  obtain ⟨rfl, rfl⟩ := assemble_eq_some hi
  exact ⟨i, rfl, by simpa using ha, hbs⟩

/-- The opcode at an index and the operands after it are the whole encoding. -/
theorem Memory.readBytes_encode {m : Memory} {k : Nat} {i : Instr} (hop : m.read k = some i.opcode)
    (hbs : m.readBytes (k + 1) i.arity = some i.operands) : m.readBytes k (1 + i.arity) = some (encode i) := by
  simp [Nat.add_comm 1, Memory.readBytes_succ, hop, hbs, encode]

/-! ## The obligations -/

/-- Settles O24, by the executor's first check. -/
theorem fetchPastTheEndFaults : Obligations.FetchPastTheEndFaults := by
  intro s hphase hquiet hpc
  rw [step_execute hquiet hphase]
  exact ⟨_, execStep_of_past_end hpc, s.raise_faultedFrom _ _ _⟩

/-- Settles O25, by the check of the opcode byte against the map. -/
theorem unlistedByteFaults : Obligations.UnlistedByteFaults := by
  intro s op hphase hquiet hpc hop hunlisted
  rw [step_execute hquiet hphase, execStep_of_read hpc hop]
  exact ⟨_, execOpcode_of_unlisted s hunlisted, s.raise_faultedFrom _ _ _⟩

/-- Settles O26: the check for an unsupported opcode comes before the operand bound. -/
theorem unsupportedOpcodeFaultsBeforeItsOperands : Obligations.UnsupportedOpcodeFaultsBeforeItsOperands := by
  intro s op hphase hquiet hpc hop hunsupported
  rw [step_execute hquiet hphase, execStep_of_read hpc hop]
  exact ⟨_, execOpcode_of_unsupported ((unsupported_iff s.cfg op).2 hunsupported), s.raise_faultedFrom _ _ _⟩

/-- Settles O22: the first three checks are the three statements above; past them the operand bound decides, and under the
invariant the bytes of a whole instruction stand at pc. -/
theorem stepMakesTheChecksInOrder : Obligations.StepMakesTheChecksInOrder := by
  intro s hinv hphase hquiet
  refine ⟨fetchPastTheEndFaults s hphase hquiet, fun hpc => ?_⟩
  obtain ⟨op, hop⟩ := Option.isSome_iff_exists.1 ((hinv.store_listed s.pc).2 hpc)
  refine ⟨op, hop, unlistedByteFaults s op hphase hquiet hpc hop,
    unsupportedOpcodeFaultsBeforeItsOperands s op hphase hquiet hpc hop, fun a ha hsupported => ⟨fun hn => ?_, fun hn => ?_⟩⟩
  · rw [step_execute hquiet hphase, execStep_of_read hpc hop]
    exact ⟨_, execOpcode_of_truncated ha (mt (unsupported_iff s.cfg op).1 hsupported) hn, s.raise_faultedFrom _ _ _⟩
  · obtain ⟨i, rfl, rfl, hbs⟩ := exists_instr_at_pc hinv.store_listed hop ha hn
    rw [step_execute hquiet hphase]
    exact ⟨i, rfl, rfl, Memory.readBytes_encode hop hbs, execStep_of_bytes hop hbs hn⟩

/-- Settles O36, by HALT's frame: the only field it writes is the phase. -/
theorem haltStopsTheRun : Obligations.HaltStopsTheRun := by
  refine ⟨rfl, fun s => ?_⟩
  obtain ⟨haround, hfault⟩ := s.halt_sameAround_sameFault
  exact ⟨s.halt, rfl, s.halt_phase, s.halt_pc, s.halt_out, s.halt_reg, fun j => ⟨s.halt_label j, s.halt_isLabelSet j⟩,
    haround, hfault, (State.exitCode_eq_zero_iff _).2 (by simp)⟩

end Sys2Proof.Machine

/-! SUPPORT and proofs for the family of STORE and ADD: the immediate, and the two ways an addition ends. -/

namespace Sys2Proof.Machine

/-! ## The immediate and the two additions (R171, R174, R176) -/

/-- R171's two rules, one for each `IMM_EXT`, leave one value for an immediate. -/
theorem eq_immValue {c : Config} {b : Byte} {y : Int} (hzero : c.immExt = .zero → y = b.toNat)
    (hsign : c.immExt = .sign → y = if b.toNat < 128 then (b.toNat : Int) else b.toNat - 256) : y = immValue c b := by
  cases h : c.immExt with
  | zero => rw [hzero h, immValue_zero h]
  | sign => rw [hsign h, immValue_sign h]

theorem exec_addImm (imm rd : Byte) (s : State) : exec (.addImm imm rd) s = .next (addValue rd (immValue s.cfg imm) s) :=
  rfl

theorem exec_addReg (rs rd : Byte) (s : State) : exec (.addReg rs rd) s = .next (addValue rd (s.reg rs) s) :=
  rfl

/-! ## The two ways an addition ends (R173) -/

/-- A sum in range, or any sum under WRAP, is stored: exact when it fits, and always the value of a cell congruent to it. -/
theorem addValue_stores {s : State} {rd : Byte} {y : Int} (hw : 1 ≤ s.cfg.regW)
    (h : fitsCell s.cfg.regW (s.reg rd + y) ∨ s.cfg.addOverflow = .wrap) :
    ∃ v, addValue rd y s = storeValue rd v s ∧ (fitsCell s.cfg.regW (s.reg rd + y) → v = s.reg rd + y) ∧
      fitsCell s.cfg.regW v ∧ (2 ^ s.cfg.regW : Int) ∣ (s.reg rd + y) - v := by
  rcases addValue_cases rd y s with ⟨v, hv, ht⟩ | ⟨hnone, -⟩
  · refine ⟨v, ht, fun hfits => ?_, addCells_fits hw hv, addCells_dvd hv⟩
    exact Option.some.inj (hv.symm.trans (addCells_of_fits hfits))
  · obtain ⟨hfault, hout⟩ := addCells_eq_none_iff.1 hnone
    rcases h with hfits | hwrap
    · exact absurd hfits hout
    · cases hwrap.symm.trans hfault

/-- Under FAULT a sum out of range is not stored: AddOverflow(rd, pc) is raised. -/
theorem addValue_raises {s : State} {rd : Byte} {y : Int} (hout : ¬ fitsCell s.cfg.regW (s.reg rd + y))
    (hfault : s.cfg.addOverflow = .fault) : addValue rd y s = s.raise .addOverflow rd.toNat s.pc := by
  rw [addValue, addCells_eq_none_iff.2 ⟨hfault, hout⟩]

/-! ## The obligations -/

/-- Settles O39: both instructions are one addition, which stores the sum or raises AddOverflow. -/
theorem addsFollowTheirRule : Obligations.AddsFollowTheirRule := by
  refine ⟨fun _ _ => ⟨rfl, rfl⟩, fun s src rd i y hw hi => ?_⟩
  have hexec : exec i s = .next (addValue rd y s) := by
    rcases hi with ⟨rfl, hzero, hsign⟩ | ⟨rfl, rfl⟩
    · rw [exec_addImm, eq_immValue hzero hsign]
    · exact exec_addReg src rd s
  rw [hexec]
  refine ⟨fun h => ?_, fun hout hfault => ?_⟩
  · obtain ⟨v, hstore, hexact, hfits, hdvd⟩ := addValue_stores (by omega) h
    obtain ⟨hreg, hframe⟩ := storeValue_spec rd v s
    rw [hstore]
    exact ⟨_, rfl, by rwa [hreg], by rwa [hreg], by rwa [hreg], hframe⟩
  · exact ⟨_, congrArg _ (addValue_raises hout hfault), s.raise_faultedFrom _ _ _⟩

/-- Settles O37: the immediate is stored, and its value is R171's under each `IMM_EXT`. -/
theorem storeImmWritesTheImmediate : Obligations.StoreImmWritesTheImmediate := by
  refine fun s imm rd => ⟨rfl, storeValue rd (immValue s.cfg imm) s, rfl, ?_⟩
  obtain ⟨hreg, hframe⟩ := storeValue_spec rd (immValue s.cfg imm) s
  rw [hreg]
  exact ⟨fun h => immValue_zero h imm, fun h => immValue_sign h imm, hframe⟩

/-- Settles O38: the stored value is the source's from before the step. -/
theorem storeRegCopiesTheRegister : Obligations.StoreRegCopiesTheRegister := fun s rs rd =>
  ⟨rfl, storeValue rd (s.reg rs) s, rfl, storeValue_spec rd (s.reg rs) s⟩

end Sys2Proof.Machine

/-! SUPPORT and proofs for the family of PRINT: the digits of a number are the library's, and what a print changes. -/

namespace Sys2Proof.Machine

/-! ## The digits of a number (R202) -/

/-- The byte of one decimal digit (R202). -/
def digitByte (d : Nat) : Byte :=
  BitVec.ofNat 8 (0x30 + d)

theorem digitByte_toNat {d : Nat} (hd : d < 10) : (digitByte d).toNat = 0x30 + d := by
  rw [digitByte, BitVec.toNat_ofNat, Nat.mod_eq_of_lt (by omega)]

theorem digitByte_ne_zeroByte {d : Nat} (hd : d < 10) (h0 : d ≠ 0) : digitByte d ≠ 0x30 := fun h => by
  have hval := digitByte_toNat hd
  rw [h] at hval
  exact h0 (Nat.add_left_cancel hval).symm

/-- With fuel for every bit, the digits are the library's, which stand least significant first. -/
theorem digitsOnto_eq_map {fuel n : Nat} (hfuel : n < 2 ^ fuel) (tail : List Byte) :
    digitsOnto fuel n tail = (Nat.digits 10 n).reverse.map digitByte ++ tail := by
  induction fuel generalizing n tail with
  | zero =>
    obtain rfl : n = 0 := by omega
    simp [digitsOnto_zero]
  | succ fuel ih =>
    by_cases h0 : n = 0
    · subst h0
      simp [digitsOnto_zero]
    · have hdiv : n / 10 < 2 ^ fuel := by omega
      rw [digitsOnto_step h0, ih hdiv, Nat.digits_def' (by decide) (Nat.pos_of_ne_zero h0)]
      simp [digitByte]

theorem digits_eq_map (m : Nat) : digits m = (Nat.digits 10 m).reverse.map digitByte := by
  rw [digits, digitsOnto_eq_map Nat.lt_log2_self, List.append_nil]

theorem readDigits_singleton (acc : Nat) (d : Byte) : readDigits acc [d] = acc * 10 + (d.toNat - 0x30) := rfl

/-- The bytes of digits that stand least significant first, reversed, read back as their number. -/
theorem readDigits_map_reverse {ds : List Nat} (hds : ∀ d ∈ ds, d < 10) :
    readDigits 0 (ds.reverse.map digitByte) = Nat.ofDigits 10 ds := by
  induction ds with
  | nil => rfl
  | cons d ds ih =>
    obtain ⟨hd, hrest⟩ := List.forall_mem_cons.1 hds
    rw [List.reverse_cons, List.map_append, readDigits_append, ih hrest, List.map_singleton, readDigits_singleton,
      digitByte_toNat hd, Nat.ofDigits_cons]
    omega

theorem readDigits_digits (m : Nat) : readDigits 0 (digits m) = m := by
  rw [digits_eq_map, readDigits_map_reverse fun _ => Nat.digits_lt_base (by decide), Nat.ofDigits_digits]

theorem digits_mem_range {m : Nat} {b : Byte} (hb : b ∈ digits m) : 0x30 ≤ b.toNat ∧ b.toNat ≤ 0x39 := by
  rw [digits_eq_map] at hb
  obtain ⟨d, hd, rfl⟩ := List.mem_map.1 hb
  have hlt : d < 10 := Nat.digits_lt_base (by decide) (List.mem_reverse.1 hd)
  rw [digitByte_toNat hlt]
  omega

/-- The first digit of a positive number is not 0: it is the library's last. -/
theorem digits_first_ne_zeroByte {m : Nat} {first : Byte} {rest : List Byte} (h0 : m ≠ 0)
    (h : digits m = first :: rest) : first ≠ 0x30 := by
  have hne : Nat.digits 10 m ≠ [] := Nat.digits_ne_nil_iff_ne_zero.2 h0
  have hfirst : first = digitByte ((Nat.digits 10 m).getLast hne) := by
    rw [digits_eq_map, ← List.dropLast_append_getLast hne, List.reverse_append] at h
    exact (List.cons.inj h).1.symm
  rw [hfirst]
  exact digitByte_ne_zeroByte (Nat.digits_lt_base (by decide) (List.getLast_mem hne))
    (Nat.getLast_digit_ne_zero 10 h0)

/-- Dec(v) of a value other than 0: the sign exactly when it is negative, then the digits of the magnitude. -/
theorem decimal_of_ne_zero {v : Int} (h : v ≠ 0) :
    decimal v = (if v < 0 then [0x2D] else []) ++ digits v.natAbs := by
  rw [decimal, if_neg h]
  by_cases hneg : v < 0
  · rw [if_neg (by omega), if_pos hneg]
    rfl
  · rw [if_pos (by omega), if_neg hneg]
    rfl

/-! ## The obligations -/

/-- Settles O42: after the sign stand the digits of the magnitude, and those are the library's, most significant first. -/
theorem decimalTextIsTheDecimalForm : Obligations.DecimalTextIsTheDecimalForm := by
  refine ⟨rfl, fun v hv => ?_⟩
  have h0 : v.natAbs ≠ 0 := Int.natAbs_ne_zero.2 hv
  obtain ⟨first, rest, hdigits⟩ := List.exists_cons_of_ne_nil (digits_ne_nil h0)
  refine ⟨first, rest, ?_, digits_first_ne_zeroByte h0 hdigits, ?_, ?_⟩
  · rw [decimal_of_ne_zero hv, hdigits]
  · exact fun d hd => digits_mem_range (hdigits ▸ hd)
  · rw [← hdigits, readDigits_digits]

/-- Settles O41: PRINT_REG prints the line of the register's decimal text. -/
theorem printRegEmitsTheDecimalText : Obligations.PrintRegEmitsTheDecimalText := fun s rs =>
  ⟨rfl, printLine (decimal (s.reg rs)) s, rfl, printLine_spec (decimal (s.reg rs)) s⟩

/-- Settles O44: PRINT_CHAR prints the line of the operand byte itself. -/
theorem printCharEmitsTheByte : Obligations.PrintCharEmitsTheByte := by
  refine fun s chr => ⟨rfl, printLine [chr] s, rfl, ?_⟩
  obtain ⟨hout, hframe⟩ := printLine_spec [chr] s
  exact ⟨by simpa using hout, hframe⟩

end Sys2Proof.Machine

/-! SUPPORT and proofs for the family of LABEL and JUMP: one equation for each way a label instruction ends. -/

namespace Sys2Proof.Machine

/-! ## Jumps through a label (R221, R226, R227) -/

theorem jumpThrough_of_usable {s : State} {j : Byte} (h : s.cfg.unsetLabelPolicy = .zero ∨ s.isLabelSet j = true) :
    jumpThrough j s = s.jump (s.label j) := by
  rw [jumpThrough, lookupLabel_eq_some h]

theorem jumpThrough_of_unset {s : State} {j : Byte} (hpolicy : s.cfg.unsetLabelPolicy = .fault)
    (hunset : s.isLabelSet j = false) : jumpThrough j s = s.raise .unsetLabel j.toNat s.pc := by
  rw [jumpThrough, lookupLabel_eq_none_iff.2 ⟨hpolicy, hunset⟩]

theorem exec_jumpImm (lbl : Byte) (s : State) : exec (.jumpImm lbl) s = .next (jumpThrough lbl s) :=
  rfl

theorem exec_jumpReg_of_index {s : State} {rs j : Byte} (h : s.reg rs = j.toNat) :
    exec (.jumpReg rs) s = .next (jumpThrough j s) := by
  rw [exec, execJumpReg, labelIndex_eq_some_iff.2 h]

/-- The index check comes first: no label is looked at (R314). -/
theorem exec_jumpReg_of_out_of_range {s : State} {rs : Byte} (h : ¬ (0 ≤ s.reg rs ∧ s.reg rs ≤ 255)) :
    exec (.jumpReg rs) s = .next (s.raise .indexBoundsError (s.reg rs) s.pc) := by
  rw [exec, execJumpReg, labelIndex_eq_none_iff.2 h]

/-! ## LABELSET_REG by its mode (R222, R223) -/

theorem exec_labelsetReg_of_index {s : State} {op1 j : Byte} (hmode : s.cfg.labelsetRegMode = .indexFromReg)
    (h : s.reg op1 = j.toNat) : exec (.labelsetReg op1) s = .next (labelSetTo j (s.pc + 2) s) := by
  simp only [exec, execLabelsetReg, hmode, labelIndex_eq_some_iff.2 h]

theorem exec_labelsetReg_of_value {s : State} {op1 : Byte} {v : Nat} (hmode : s.cfg.labelsetRegMode = .valueFromReg)
    (hv : s.reg op1 = v) (hle : v ≤ s.cfg.progMax) : exec (.labelsetReg op1) s = .next (labelSetTo op1 v s) := by
  simp only [exec, execLabelsetReg, hmode, regIndex_eq_some_iff.2 ⟨hv, hle⟩]

theorem exec_labelsetReg_of_index_out_of_range {s : State} {op1 : Byte}
    (hmode : s.cfg.labelsetRegMode = .indexFromReg) (h : ¬ (0 ≤ s.reg op1 ∧ s.reg op1 ≤ 255)) :
    exec (.labelsetReg op1) s = .next (s.raise .indexBoundsError (s.reg op1) s.pc) := by
  simp only [exec, execLabelsetReg, hmode, labelIndex_eq_none_iff.2 h]

theorem exec_labelsetReg_of_value_out_of_range {s : State} {op1 : Byte}
    (hmode : s.cfg.labelsetRegMode = .valueFromReg) (h : ¬ (0 ≤ s.reg op1 ∧ s.reg op1 ≤ s.cfg.progMax)) :
    exec (.labelsetReg op1) s = .next (s.raise .indexBoundsError (s.reg op1) s.pc) := by
  simp only [exec, execLabelsetReg, hmode, regIndex_eq_none_iff.2 h]

/-! ## Unsupported opcodes (R143) -/

theorem raiseUnsupported_faultedFrom (op : Byte) (s : State) :
    FaultedFrom s (raiseUnsupported op s) .unsupportedOpcode op.toNat s.pc :=
  s.raise_faultedFrom _ _ _

/-! ## The obligations -/

/-- Settles O46, by the mode: the label the register names, the label op1 itself, or the mode's fault. -/
theorem labelsetRegFollowsItsMode : Obligations.LabelsetRegFollowsItsMode := by
  refine fun s op1 => ⟨rfl, fun hmode j hj => ?_, fun hmode hpos hle => ?_, fun hmode hout => ?_, fun hmode hout => ?_,
    fun hmode => ?_⟩
  · exact ⟨_, exec_labelsetReg_of_index hmode hj, labelSetTo_spec j (s.pc + 2) s⟩
  · obtain ⟨v, hv⟩ := Int.eq_ofNat_of_zero_le hpos
    obtain ⟨hlabel, hframe⟩ := labelSetTo_spec op1 v s
    exact ⟨_, exec_labelsetReg_of_value hmode hv (by omega), by rw [hlabel, hv], hframe⟩
  · exact ⟨_, exec_labelsetReg_of_index_out_of_range hmode hout, s.raise_faultedFrom _ _ _⟩
  · exact ⟨_, exec_labelsetReg_of_value_out_of_range hmode hout, s.raise_faultedFrom _ _ _⟩
  · exact ⟨_, exec_of_unsupported ((unsupported_iff s.cfg 40).2 (.inr ⟨rfl, hmode⟩)), raiseUnsupported_faultedFrom 40 s⟩

/-- Settles O48: past the index check it is a jump through the label that the register names. -/
theorem jumpRegGoesThroughTheNamedLabel : Obligations.JumpRegGoesThroughTheNamedLabel := by
  refine fun s rs => ⟨rfl, fun j hj husable => ?_, fun j hj hpolicy hunset => ?_, fun hout => ?_⟩
  · rw [exec_jumpReg_of_index hj, jumpThrough_of_usable husable]
    exact ⟨_, rfl, s.jump_spec (s.label j)⟩
  · rw [exec_jumpReg_of_index hj, jumpThrough_of_unset hpolicy hunset]
    exact ⟨_, rfl, s.raise_faultedFrom _ _ _⟩
  · exact ⟨_, exec_jumpReg_of_out_of_range hout, s.raise_faultedFrom _ _ _⟩

/-- Settles O45: the label write with pc + 2. -/
theorem labelsetImmMarksTheNextInstruction : Obligations.LabelsetImmMarksTheNextInstruction := fun s lbl =>
  ⟨rfl, labelSetTo lbl (s.pc + 2) s, rfl, labelSetTo_spec lbl (s.pc + 2) s⟩

/-- Settles O47; index 0 under ZERO is the invariant's: a label never written is 0. -/
theorem jumpImmGoesToTheLabel : Obligations.JumpImmGoesToTheLabel := by
  intro s lbl
  rw [exec_jumpImm]
  refine ⟨rfl, fun husable => ?_, fun hinv hpolicy hunset => ?_, fun hpolicy hunset => ?_⟩
  · rw [jumpThrough_of_usable husable]
    exact ⟨_, rfl, s.jump_spec (s.label lbl)⟩
  · rw [jumpThrough_of_usable (.inl hpolicy), hinv.labels_unset lbl hunset]
    exact ⟨_, rfl, s.jump_pc 0⟩
  · rw [jumpThrough_of_unset hpolicy hunset]
    exact ⟨_, rfl, s.raise_faultedFrom _ _ _⟩

/-- Settles O49: opcode 44 is unsupported under every parameter set. -/
theorem jumptrueIsUnsupported : Obligations.JumptrueIsUnsupported := fun s _ _ _ =>
  ⟨rfl, _, exec_of_unsupported ((unsupported_iff s.cfg 44).2 (.inl rfl)), raiseUnsupported_faultedFrom 44 s⟩

end Sys2Proof.Machine

/-! SUPPORT and proofs for the family of the exceptions: the faults of each unit with what raised them, and an ended run's
result. -/

namespace Sys2Proof.Machine

/-! ## The result of a run (R335) -/

/-- A run has a result exactly when it has ended, and it is the triple of R335. -/
theorem State.result?_eq_some_iff (s : State) (x : RunResult) :
    s.result? = some x ↔ (s.phase = .halted ∨ s.phase = .faulted) ∧
      x = ⟨s.out, s.exitCode, s.faultCause.code, s.faultValue, s.faultPos⟩ := by
  cases hphase : s.phase <;> simp [State.result?, hphase, eq_comm]

/-! ## What raises a fault of the tokenizer (R108, R110) -/

/-- `t` is `s` after the tokenizer's fault: a whole token meets a full store, or a token ends short or gets a 17th byte. -/
def TokenizerFault (s t : State) : Prop :=
  (s.tkLen = 16 ∧ s.progLen = s.cfg.progMax ∧ t = raiseOutOfMemory s) ∨
    (s.tkLen ≠ 0 ∧ s.tkLen ≠ 16 ∧ t = raiseFormatError s.tkLen s) ∨ (s.tkLen = 16 ∧ t = raiseFormatError 17 s)

/-- FormatError reports a short token's length, 1 to 15 (R108). -/
theorem shortToken_length_range {n : Nat} (h0 : n ≠ 0) (h16 : n ≠ 16) (hle : n ≤ 16) :
    1 ≤ (n : Int) ∧ (n : Int) ≤ 15 := by omega

theorem packByte_phase (b : Byte) (s : State) : (packByte b s).phase = s.phase := by
  rcases packByte_cases b s with ⟨-, e⟩ | ⟨-, -, e⟩ | ⟨-, -, e⟩ <;> rw [e]

theorem acceptByte_faulted {b : Byte} {s : State} (hs : s.phase ≠ .faulted) (ht : (acceptByte b s).phase = .faulted) :
    TokenizerFault s (acceptByte b s) := by
  rcases acceptByte_cases b s with
    ⟨-, ⟨-, e⟩ | ⟨-, -, e⟩ | ⟨h16, hfull, e⟩ | ⟨h0, h16, e⟩⟩ | ⟨-, ⟨h16, e⟩ | ⟨-, e⟩⟩
  · rw [e] at ht; exact absurd ht hs
  · rw [e] at ht; exact absurd ht hs
  · exact .inl ⟨h16, hfull, e⟩
  · exact .inr (.inl ⟨h0, h16, e⟩)
  · exact .inr (.inr ⟨h16, e⟩)
  · rw [e, packByte_phase] at ht; exact absurd ht hs

theorem acceptEnd_faulted {s : State} (ht : (acceptEnd s).phase = .faulted) : TokenizerFault s (acceptEnd s) := by
  rcases acceptEnd_cases s with ⟨-, e⟩ | ⟨-, -, e⟩ | ⟨h16, hfull, e⟩ | ⟨h0, h16, e⟩
  · rw [e] at ht; cases ht
  · rw [e] at ht; cases ht
  · exact .inl ⟨h16, hfull, e⟩
  · exact .inr (.inl ⟨h0, h16, e⟩)

/-! ## The steps that can fault -/

/-- A step into FAULTED that is behind no idle entry is not a Reset either: Reset leads to TOKENIZE. -/
theorem hostQuiet_of_step_faulted {s t : State} (hidle : ∀ later, s.pending ≠ .idle :: later) (h : step s = .next t)
    (ht : t.phase = .faulted) : s.hostQuiet := by
  refine fun later => ⟨fun hreset => ?_, hidle later⟩
  cases (step_reset hreset).symm.trans h
  cases ht

/-- In TOKENIZE only an accepted input transfer can fault, and with a fault of the tokenizer. -/
theorem step_tokenize_faulted {s t : State} (hphase : s.phase = .tokenize) (hquiet : s.hostQuiet)
    (h : step s = .next t) (ht : t.phase = .faulted) : ∃ later, TokenizerFault { s with pending := later } t := by
  have hs : s.phase ≠ .faulted := by simp [hphase]
  rcases step_cases s with ⟨later, hpend, -⟩ | ⟨b, later, -, -, e⟩ | ⟨later, -, -, e⟩ | ⟨p, -, e⟩
  · exact absurd hpend (hquiet later).1
  · cases e.symm.trans h
    exact ⟨later, acceptByte_faulted hs ht⟩
  · cases e.symm.trans h
    exact ⟨later, acceptEnd_faulted ht⟩
  · rw [coreStep_tokenize (s := { s with pending := p }) hphase] at e
    cases e.symm.trans h
    exact absurd ht hs

/-! ## The operand bytes in the store (R27) -/

/-- Each byte of a run of bytes stands at its own index. -/
theorem Memory.read_of_readBytes {m : Memory} {a n : Nat} {bs : List Byte} (h : m.readBytes a n = some bs) {k : Nat}
    (hk : k < n) : m.read (a + k) = bs[k]? := by
  induction n generalizing a bs k with
  | zero => omega
  | succ n ih =>
    rw [Memory.readBytes_succ] at h
    obtain ⟨b, hb, hmap⟩ := Option.bind_eq_some_iff.1 h
    obtain ⟨rest, hrest, rfl⟩ := Option.map_eq_some_iff.1 hmap
    cases k with
    | zero => exact hb
    | succ k => rw [List.getElem?_cons_succ, ← ih hrest (Nat.lt_of_succ_lt_succ hk), Nat.add_assoc, Nat.add_comm 1]

/-! ## The obligations -/

/-- Settles O32: a fault in TOKENIZE is the tokenizer's; one in EXECUTE is a check of the executor's, in their order, or the
own fault of the instruction at pc, whose operands are the bytes after it. -/
theorem faultTableHolds : Obligations.FaultTableHolds := by
  refine ⟨fun c later => ⟨rfl, rfl, rfl⟩, fun s t hphase hidle hstep ht => ?_⟩
  have hquiet := hostQuiet_of_step_faulted hidle hstep ht
  rcases hphase with hphase | hphase
  · obtain ⟨later, ⟨h16, hfull, rfl⟩ | ⟨h0, h16, rfl⟩ | ⟨h16, rfl⟩⟩ := step_tokenize_faulted hphase hquiet hstep ht
    · exact ⟨rfl, hphase, rfl, hfull, rfl, h16⟩
    · exact ⟨rfl, hphase, rfl, h0, .inl ⟨rfl, h16⟩, fun hle => .inl (shortToken_length_range h0 h16 hle)⟩
    · exact ⟨rfl, hphase, rfl, ne_of_eq_of_ne h16 (by decide), .inr ⟨rfl, h16⟩, fun _ => .inr rfl⟩
  rw [step_execute hquiet hphase] at hstep
  rcases execStep_cases s with ⟨hpc, e⟩ | ⟨op, -, hop, hunlisted, e⟩ | ⟨op, -, hop, hunsupported, e⟩ |
    ⟨op, a, hpc, hop, ha, -, hn, e⟩ | ⟨i, hop, hbs, -, -, e⟩ | ⟨-, e⟩
  · cases e.symm.trans hstep
    exact ⟨rfl, hphase, rfl, .inl ⟨hpc, rfl⟩⟩
  · cases e.symm.trans hstep
    exact ⟨rfl, hphase, rfl, op, hop, hunlisted, rfl⟩
  · cases e.symm.trans hstep
    rcases (unsupported_iff s.cfg op).1 hunsupported with rfl | ⟨rfl, hmode⟩
    · exact ⟨rfl, hphase, rfl, .inl ⟨hop, rfl⟩⟩
    · exact ⟨rfl, hphase, rfl, .inr ⟨hop, rfl, hmode⟩⟩
  · cases e.symm.trans hstep
    exact ⟨rfl, hphase, rfl, .inr ⟨hpc, rfl, op, a, hop, ha, hn⟩⟩
  · obtain ⟨c, v, hown, rfl⟩ := exec_faulted (by simp [hphase]) (e.symm.trans hstep) ht
    have hoperand {k : Nat} (hk : k < i.arity) : s.prog.read (s.pc + 1 + k) = i.operands[k]? :=
      Memory.read_of_readBytes hbs hk
    rcases hown with ⟨src, rd, hi, rfl, rfl, hpolicy⟩ | ⟨r, rfl, rfl, rfl, hrange⟩ | ⟨r, rfl, rfl, rfl, hmode⟩ |
      ⟨r, rfl, rfl, rfl, hrange⟩ | ⟨r, j, rfl, hj, rfl, rfl, hpolicy, hunset⟩ | ⟨j, rfl, rfl, rfl, hpolicy, hunset⟩ |
      ⟨a, b, d, rfl, rfl, rfl⟩
    · refine ⟨rfl, hphase, rfl, hpolicy, rd, ?_⟩
      rcases hi with rfl | rfl
      · exact ⟨hoperand (k := 1) Nat.one_lt_two, rfl, .inl hop⟩
      · exact ⟨hoperand (k := 1) Nat.one_lt_two, rfl, .inr hop⟩
    · exact ⟨rfl, hphase, rfl, r, hoperand (k := 0) Nat.one_pos, rfl, .inr ⟨hop, hrange⟩⟩
    · exact ⟨rfl, hphase, rfl, .inr ⟨hop, rfl, hmode⟩⟩
    · exact ⟨rfl, hphase, rfl, r, hoperand (k := 0) Nat.one_pos, rfl, .inl ⟨hop, hrange⟩⟩
    · exact ⟨rfl, hphase, rfl, hpolicy, j, rfl, hunset, .inr ⟨hop, r, hoperand (k := 0) Nat.one_pos, hj⟩⟩
    · exact ⟨rfl, hphase, rfl, hpolicy, j, rfl, hunset, .inl ⟨hop, hoperand (k := 0) Nat.one_pos⟩⟩
    · exact ⟨rfl, hphase, rfl, .inl ⟨hop, rfl⟩⟩
  · cases e.symm.trans hstep

/-- Settles O35, by when a run has a result and what it is. -/
theorem endedRunsHaveTheirResult : Obligations.EndedRunsHaveTheirResult := by
  refine fun s => ⟨?_, fun x hx => ?_⟩
  · simp [Option.isSome_iff_exists, State.result?_eq_some_iff]
  · obtain ⟨-, rfl⟩ := (s.result?_eq_some_iff x).1 hx
    exact ⟨rfl, rfl, rfl, rfl, fun h => s.exitCode_eq_zero_iff.2 (by simp [h]), s.exitCode_eq_one_iff.2⟩

end Sys2Proof.Machine

/-! SUPPORT: what every step of the core leaves alone, by the way the step is taken. -/

namespace Sys2Proof.Machine

/-! ## The core's own step -/

/-- The core steps on its own: its next entry is an idle one, which is passed over, or nothing that it takes. -/
def CoreSteps (s : State) (p : List HostTransfer) : Prop :=
  p = s.pending ∧ s.hostQuiet ∧ (s.phase ≠ .tokenize ∨ s.pending = []) ∨ s.pending = .idle :: p

theorem CoreSteps.step_eq {s : State} {p : List HostTransfer} (h : CoreSteps s p) :
    step s = coreStep { s with pending := p } := by
  rcases h with ⟨rfl, hquiet, hphase⟩ | hidle
  · exact step_quiet hquiet hphase
  · exact step_idle hidle

theorem CoreSteps.mem {s : State} {p : List HostTransfer} (h : CoreSteps s p) {x : HostTransfer} (hx : x ∈ p) :
    x ∈ s.pending := by
  rcases h with ⟨rfl, -, -⟩ | hidle
  · exact hx
  · rw [hidle]; exact List.mem_cons_of_mem _ hx

/-- Once the tokenizer has ended and with no Reset to come, every step is the core's own. -/
theorem coreSteps_of_started {s : State} (hphase : s.phase ≠ .tokenize) (hreset : ∀ x ∈ s.pending, x ≠ .reset) :
    ∃ p, CoreSteps s p := by
  rcases step_cases s with ⟨later, hpend, -⟩ | ⟨b, later, hp, -⟩ | ⟨later, hp, -⟩ | ⟨p, hp, -⟩
  · exact absurd rfl (hreset .reset (by simp [hpend]))
  · exact absurd hp hphase
  · exact absurd hp hphase
  · exact ⟨p, hp⟩

/-- Outside EXECUTE the core waits, or a Reset to come takes an ended run back to reset. -/
theorem coreStep_cases (s : State) :
    (s.phase ≠ .execute ∧ coreStep s = .next s) ∨ (∃ later, coreStep s = .next (State.resetWith s.cfg later)) ∨
      (s.phase = .execute ∧ coreStep s = execStep s) := by
  by_cases hended : s.phase = .halted ∨ s.phase = .faulted
  · rw [coreStep_ended hended]
    rcases endedStep_cases s with e | ⟨later, e⟩
    · exact .inl ⟨by rcases hended with h | h <;> simp [h], congrArg _ e⟩
    · exact .inr (.inl ⟨later, congrArg _ e⟩)
  cases hphase : s.phase with
  | tokenize => exact .inl ⟨nofun, coreStep_tokenize hphase⟩
  | execute => exact .inr (.inr ⟨rfl, coreStep_execute hphase⟩)
  | halted => exact absurd (.inl hphase) hended
  | faulted => exact absurd (.inr hphase) hended

/-- With no Reset to come the core waits outside EXECUTE. -/
theorem coreStep_waits {s : State} (hphase : s.phase ≠ .execute) (hreset : ∀ x ∈ s.pending, x ≠ .reset) :
    coreStep s = .next s := by
  have hended := endedStep_of_no_reset hreset
  cases hp : s.phase with
  | tokenize => exact coreStep_tokenize hp
  | execute => exact absurd hp hphase
  | halted => rw [coreStep_ended (.inl hp), hended]
  | faulted => rw [coreStep_ended (.inr hp), hended]

/-! ## What a step leaves alone -/

/-- An executor's step that answers a next state has failed one of its checks, or is the instruction at pc. -/
theorem execStep_raises_or_execs {s t : State} (h : execStep s = .next t) :
    (∃ c v, (c = .unknownOpcode ∨ c = .unsupportedOpcode ∨ c = .programBoundsError) ∧ t = s.raise c v s.pc) ∨
    ∃ i, s.prog.read s.pc = some i.opcode ∧ s.prog.readBytes (s.pc + 1) i.arity = some i.operands ∧
      unsupported s.cfg i.opcode = false ∧ s.pc + i.arity < s.progLen ∧ exec i s = .next t := by
  rcases execStep_cases s with ⟨-, e⟩ | ⟨op, -, -, -, e⟩ | ⟨op, -, -, -, e⟩ | ⟨op, a, -, -, -, -, -, e⟩ |
    ⟨i, hop, hoperands, hsupported, hpc, e⟩ | ⟨-, e⟩
  · cases e.symm.trans h; exact .inl ⟨_, _, .inr (.inr rfl), rfl⟩
  · cases e.symm.trans h; exact .inl ⟨_, _, .inl rfl, rfl⟩
  · cases e.symm.trans h; exact .inl ⟨_, _, .inr (.inl rfl), rfl⟩
  · cases e.symm.trans h; exact .inl ⟨_, _, .inr (.inr rfl), rfl⟩
  · exact .inr ⟨i, hop, hoperands, hsupported, hpc, e.symm.trans h⟩
  · cases e.symm.trans h

/-- The executor's step leaves the program store, the tokenizer, the parameters and the host's transfers alone. -/
theorem execStep_sameAround {s t : State} (h : execStep s = .next t) : SameAround s t := by
  rcases execStep_raises_or_execs h with ⟨c, v, -, rfl⟩ | ⟨i, -, -, -, -, he⟩
  · exact SameAround.refl s
  · exact (noInstructionWritesTheProgramStore i s t he).1

theorem coreStep_cfg {s t : State} (h : coreStep s = .next t) : t.cfg = s.cfg := by
  rcases coreStep_cases s with ⟨-, e⟩ | ⟨later, e⟩ | ⟨-, e⟩
  · cases e.symm.trans h; rfl
  · cases e.symm.trans h; rfl
  · obtain ⟨-, -, hcfg, -⟩ := execStep_sameAround (e.symm.trans h)
    exact hcfg

/-- No step writes the parameters (notes/assumptions/1.md, 18.md). -/
theorem step_cfg {s t : State} (h : step s = .next t) : t.cfg = s.cfg := by
  rcases step_cases s with ⟨later, -, e⟩ | ⟨b, later, -, -, e⟩ | ⟨later, -, -, e⟩ | ⟨p, -, e⟩
  · cases e.symm.trans h; rfl
  · cases e.symm.trans h
    obtain ⟨-, -, -, -, hcfg, -⟩ := acceptByte_frame b { s with pending := later }
    exact hcfg
  · cases e.symm.trans h
    obtain ⟨-, -, -, -, hcfg, -⟩ := acceptEnd_frame { s with pending := later }
    exact hcfg
  · exact coreStep_cfg (s := { s with pending := p }) (e.symm.trans h)

/-- With no Reset to come the core's own step leaves the host's transfers alone. -/
theorem coreStep_pending {s t : State} (hreset : ∀ x ∈ s.pending, x ≠ .reset) (h : coreStep s = .next t) :
    t.pending = s.pending := by
  by_cases hphase : s.phase = .execute
  · obtain ⟨-, -, -, hpend⟩ := execStep_sameAround ((coreStep_execute hphase).symm.trans h)
    exact hpend
  · cases (coreStep_waits hphase hreset).symm.trans h; rfl

/-- A step takes transfers from the host's list and adds none. -/
theorem step_keeps_no_reset {s t : State} (hreset : ∀ x ∈ s.pending, x ≠ .reset) (h : step s = .next t) :
    ∀ x ∈ t.pending, x ≠ .reset := by
  rcases step_cases s with ⟨later, hpend, -⟩ | ⟨b, later, -, hpend, e⟩ | ⟨later, -, hpend, e⟩ | ⟨p, hp, e⟩
  · exact absurd rfl (hreset .reset (by simp [hpend]))
  · cases e.symm.trans h
    obtain ⟨-, -, -, -, -, htaken⟩ := acceptByte_frame b { s with pending := later }
    rw [htaken]
    exact fun x hx => hreset x (hpend ▸ List.mem_cons_of_mem _ hx)
  · cases e.symm.trans h
    obtain ⟨-, -, -, -, -, htaken⟩ := acceptEnd_frame { s with pending := later }
    rw [htaken]
    exact fun x hx => hreset x (hpend ▸ List.mem_cons_of_mem _ hx)
  · have hrest : ∀ x ∈ p, x ≠ .reset := fun x hx => hreset x (CoreSteps.mem hp hx)
    rw [coreStep_pending hrest (e.symm.trans h)]
    exact hrest

/-! ## Ended and waiting cores -/

/-- The step of an ended run with no Reset to come: at most an idle entry of the host's schedule goes. -/
theorem step_ended_waits {s : State} (hphase : s.phase = .halted ∨ s.phase = .faulted)
    (hreset : ∀ x ∈ s.pending, x ≠ .reset) :
    ∃ p, step s = .next { s with pending := p } ∧ ∀ x ∈ p, x ≠ .reset := by
  have htok : s.phase ≠ .tokenize := by rcases hphase with h | h <;> simp [h]
  have hexe : s.phase ≠ .execute := by rcases hphase with h | h <;> simp [h]
  obtain ⟨p, hp⟩ := coreSteps_of_started htok hreset
  have hrest : ∀ x ∈ p, x ≠ .reset := fun x hx => hreset x (hp.mem hx)
  exact ⟨p, by rw [hp.step_eq, coreStep_waits (s := { s with pending := p }) hexe hrest], hrest⟩

theorem runSteps_of_step_self {s : State} (h : step s = .next s) (n : Nat) : runSteps n s = .next s := by
  induction n with
  | zero => rfl
  | succ n ih => rw [runSteps_succ_of_next h, ih]

/-- An ended run does not take input (R331). -/
theorem step_ended_input {s : State} (hphase : s.phase = .halted ∨ s.phase = .faulted)
    (hinput : ∀ x ∈ s.pending, x ≠ .reset ∧ x ≠ .idle) : step s = .next s := by
  have hquiet : s.hostQuiet := fun later =>
    ⟨fun h => (hinput .reset (by simp [h])).1 rfl, fun h => (hinput .idle (by simp [h])).2 rfl⟩
  rw [step_ended hquiet hphase, endedStep_of_no_reset fun x hx => (hinput x hx).1]

end Sys2Proof.Machine

/-! SUPPORT and proofs for the invariant of the core: the reset state has it, and each update of a step keeps it. -/

namespace Sys2Proof.Machine

/-! ## The invariant and the parts of the state it does not speak of -/

/-- REG_W is at least 9 (R12). -/
theorem Config.nine_le_regW {c : Config} (h : c.wellFormed = true) : 9 ≤ c.regW := by
  simp only [Config.wellFormed, Bool.and_eq_true, decide_eq_true_eq] at h
  exact h.1.1

/-- The invariant says nothing of the host's transfers. -/
theorem State.Inv.withPending {s : State} (h : s.Inv) (p : List HostTransfer) : State.Inv { s with pending := p } :=
  { h with }

/-- The reset state has the invariant for all parameters in their ranges. -/
theorem State.resetWith_inv {c : Config} (hc : c.wellFormed = true) (p : List HostTransfer) :
    (State.resetWith c p).Inv where
  config := hc
  regs_fit r := by rw [State.resetWith_reg]; exact fitsCell_zero _
  labels_bound j := by rw [State.resetWith_label]; exact Nat.zero_le _
  labels_unset j _ := State.resetWith_label c p j
  store_form := rfl
  store_listed k := by simp
  store_bound := Nat.zero_le _
  pc_bound := Nat.zero_le _
  token_len := Nat.zero_le _
  token_clear _ := ⟨rfl, rfl⟩
  token_bits _ _ := BitVec.getLsbD_zero
  token_done _ := rfl
  not_started _ := ⟨rfl, rfl, State.resetWith_reg c p,
    fun j => ⟨State.resetWith_label c p j, State.resetWith_isLabelSet c p j⟩⟩
  no_fault _ := ⟨rfl, rfl, rfl⟩
  fault_cause := nofun
  fault_pos := nofun
  fault_value := fitsCell_zero _

/-! ## Values that fit FAULT_VALUE (R55) -/

theorem fitsCell_mono {v w : Nat} (h : v ≤ w) {x : Int} (hx : fitsCell v x) : fitsCell w x := by
  have : (2 : Int) ^ (v - 1) ≤ 2 ^ (w - 1) := pow_le_pow_right₀ (by norm_num) (by omega)
  constructor <;> omega

theorem progMax_lt_two_pow_pcWidth (c : Config) : c.progMax < 2 ^ pcWidth c := by
  rw [pcWidth]
  split
  · omega
  · exact Nat.lt_log2_self

/-- A register's value fits. -/
theorem fits_fault_of_cell {c : Config} {x : Int} (h : fitsCell c.regW x) : fitsCell (faultWidth c) x :=
  fitsCell_mono (le_max_left _ _) h

/-- A byte fits, in nine bits already. -/
theorem fits_fault_of_lt_256 {c : Config} (hc : c.wellFormed = true) {n : Nat} (h : n < 256) :
    fitsCell (faultWidth c) n := by
  have := two_pow_ge_256 (Config.nine_le_regW hc)
  exact fits_fault_of_cell (by constructor <;> omega)

/-- An index of the program store fits, PROG_MAX too. -/
theorem fits_fault_of_le_progMax {c : Config} {n : Nat} (h : n ≤ c.progMax) : fitsCell (faultWidth c) n := by
  refine fitsCell_mono (le_max_right c.regW (pcWidth c + 1)) ?_
  have hlt : (n : Int) < 2 ^ pcWidth c := by exact_mod_cast h.trans_lt (progMax_lt_two_pow_pcWidth c)
  rw [fitsCell, Nat.add_sub_cancel]
  omega

/-! ## Faults -/

/-- Raising a fault keeps the invariant when the value fits and the position is R56's. -/
theorem State.raise_inv {s : State} (h : s.Inv) {c : FaultCause} {v : Int} {p : Nat} (hc : c ≠ .none)
    (hv : fitsCell (faultWidth s.cfg) v)
    (hp : p = if c = .formatError ∨ c = .outOfMemory then s.progLen else s.pc) : (s.raise c v p).Inv :=
  { h with
    token_done := nofun
    not_started := nofun
    no_fault := fun hne => absurd rfl hne
    fault_cause := fun _ => hc
    fault_pos := fun _ => hp
    fault_value := hv }

/-! ## The tokenizer (R104 to R110) -/

/-- A commit with room keeps the invariant: the store grows by its index N. -/
theorem committed_inv {s : State} (h : s.Inv) (hphase : s.phase = .tokenize) (hroom : s.progLen ≠ s.cfg.progMax) :
    (committed s).Inv :=
  { h with
    store_form := s.appendByte_prog_wf s.tkAcc h.store_form
    store_listed := fun k => by
      change ((s.prog.write s.progLen s.tkAcc).read k).isSome = true ↔ k < s.progLen + 1
      rw [Memory.read_write]
      by_cases hk : k = s.progLen
      · simp [hk]
      · rw [if_neg hk, h.store_listed]
        omega
    store_bound := Nat.lt_of_le_of_ne h.store_bound hroom
    token_len := Nat.zero_le _
    token_clear := fun _ => ⟨rfl, rfl⟩
    token_bits := fun _ _ => BitVec.getLsbD_zero
    token_done := fun _ => rfl
    fault_pos := fun hf => absurd (hphase.symm.trans hf) nofun }

/-- The pairwise comparator keeps the invariant: it sets at most the bit of the pair it completes. -/
theorem packByte_inv {s : State} (h : s.Inv) (hphase : s.phase = .tokenize) (h16 : s.tkLen ≠ 16) (b : Byte) :
    (packByte b s).Inv := by
  have hlen : s.tkLen + 1 ≤ 16 := by have := h.token_len; omega
  have hdone : ¬ (s.phase = .execute ∨ s.phase = .halted) := by simp [hphase]
  rcases Nat.mod_two_eq_zero_or_one s.tkLen with heven | hodd
  · rw [packByte_even b heven]
    exact { h with
      token_len := hlen
      token_clear := nofun
      token_bits := fun i hi => h.token_bits i (by simp only at hi; omega)
      token_done := fun hp => absurd hp hdone }
  · obtain ⟨acc, e, hacc⟩ := packByte_odd b hodd
    rw [e]
    refine { h with
      token_len := hlen
      token_clear := nofun
      token_bits := fun i hi => ?_
      token_done := fun hp => absurd hp hdone }
    by_cases hi8 : i < 8
    · have hne : i ≠ (s.tkLen - 1) / 2 := by simp only at hi; omega
      rw [hacc i hi8, h.token_bits i (by simp only at hi; omega)]
      simp [hne]
    · exact BitVec.getLsbD_of_ge _ _ (by omega)

/-- The tokenizer's two faults keep the invariant. -/
theorem TokenizerFault.inv {s t : State} (h : s.Inv) (hf : TokenizerFault s t) : t.Inv := by
  rcases hf with ⟨-, -, rfl⟩ | ⟨-, -, rfl⟩ | ⟨-, rfl⟩
  · exact State.raise_inv h (by simp) (fits_fault_of_le_progMax le_rfl) (by simp)
  · exact State.raise_inv h (by simp) (fits_fault_of_lt_256 h.config (by have := h.token_len; omega)) (by simp)
  · exact State.raise_inv h (by simp) (fits_fault_of_lt_256 h.config (n := 17) (by decide)) (by simp)

theorem acceptByte_inv {s : State} (h : s.Inv) (hphase : s.phase = .tokenize) (b : Byte) : (acceptByte b s).Inv := by
  rcases acceptByte_cases b s with
    ⟨-, ⟨-, e⟩ | ⟨-, hroom, e⟩ | ⟨h16, hfull, e⟩ | ⟨h0, h16, e⟩⟩ | ⟨-, ⟨h16, e⟩ | ⟨h16, e⟩⟩
  · rwa [e]
  · rw [e]; exact committed_inv h hphase hroom
  · exact TokenizerFault.inv h (.inl ⟨h16, hfull, e⟩)
  · exact TokenizerFault.inv h (.inr (.inl ⟨h0, h16, e⟩))
  · exact TokenizerFault.inv h (.inr (.inr ⟨h16, e⟩))
  · rw [e]; exact packByte_inv h hphase h16 b

/-- A clean start of execution keeps the invariant. -/
theorem State.startExecution_inv {s : State} (h : s.Inv) (hphase : s.phase = .tokenize) (h0 : s.tkLen = 0) :
    s.startExecution.Inv :=
  { h with
    pc_bound := Nat.zero_le _
    token_done := fun _ => h0
    not_started := nofun
    no_fault := fun _ => h.no_fault (by simp [hphase])
    fault_cause := nofun
    fault_pos := nofun }

theorem acceptEnd_inv {s : State} (h : s.Inv) (hphase : s.phase = .tokenize) : (acceptEnd s).Inv := by
  rcases acceptEnd_cases s with ⟨h0, e⟩ | ⟨-, hroom, e⟩ | ⟨h16, hfull, e⟩ | ⟨h0, h16, e⟩
  · rw [e]; exact State.startExecution_inv h hphase h0
  · rw [e]; exact State.startExecution_inv (committed_inv h hphase hroom) hphase rfl
  · exact TokenizerFault.inv h (.inl ⟨h16, hfull, e⟩)
  · exact TokenizerFault.inv h (.inr (.inl ⟨h0, h16, e⟩))

/-! ## The executor (R145, R150) -/

theorem State.halt_inv {s : State} (h : s.Inv) (hphase : s.phase = .execute) : s.halt.Inv :=
  { h with
    token_done := fun _ => h.token_done (.inl hphase)
    not_started := nofun
    no_fault := fun _ => h.no_fault (by simp [hphase])
    fault_cause := nofun
    fault_pos := nofun }

/-- While executing, only the bounds of the registers, the labels and pc are at stake. -/
theorem State.Inv.executing {s : State} (h : s.Inv) (hphase : s.phase = .execute) {regs : Vector Int 256}
    {labels : Vector Nat 256} {flags : Vector Bool 256} {pc : Nat} {out : List Byte} {t : State}
    (ht : t = { s with regs := regs, labels := labels, labelSet := flags, pc := pc, out := out })
    (hregs : ∀ r, fitsCell s.cfg.regW (t.reg r)) (hbound : ∀ j, t.label j ≤ s.cfg.progMax)
    (hunset : ∀ j, t.isLabelSet j = false → t.label j = 0) (hpc : t.pc ≤ s.cfg.progMax) : t.Inv := by
  subst ht
  exact { h with
    regs_fit := hregs
    labels_bound := hbound
    labels_unset := hunset
    pc_bound := hpc
    not_started := fun hp => absurd (hphase.symm.trans hp) nofun
    fault_pos := fun hp => absurd (hphase.symm.trans hp) nofun }

theorem storeValue_inv {s : State} (h : s.Inv) (hphase : s.phase = .execute) (hpc : s.pc + 2 < s.progLen) (rd : Byte)
    {v : Int} (hv : fitsCell s.cfg.regW v) : (storeValue rd v s).Inv := by
  obtain ⟨hrd, hothers, -⟩ := storeValue_spec rd v s
  refine h.executing hphase rfl (fun r => ?_) h.labels_bound h.labels_unset
    (Nat.le_trans hpc h.store_bound)
  by_cases hr : r = rd
  · rwa [hr, hrd]
  · rw [hothers r hr]; exact h.regs_fit r

theorem printLine_inv {s : State} (h : s.Inv) (hphase : s.phase = .execute) (hpc : s.pc + 1 < s.progLen)
    (text : List Byte) : (printLine text s).Inv :=
  h.executing hphase rfl h.regs_fit h.labels_bound h.labels_unset (Nat.le_trans hpc h.store_bound)

theorem labelSetTo_inv {s : State} (h : s.Inv) (hphase : s.phase = .execute) (hpc : s.pc + 1 < s.progLen) (j : Byte)
    {v : Nat} (hv : v ≤ s.cfg.progMax) : (labelSetTo j v s).Inv := by
  obtain ⟨hj, hset, hothers, -⟩ := labelSetTo_spec j v s
  refine h.executing hphase rfl h.regs_fit (fun k => ?_) (fun k hk => ?_) (Nat.le_trans hpc h.store_bound)
  · by_cases hkj : k = j
    · rwa [hkj, hj]
    · rw [(hothers k hkj).1]; exact h.labels_bound k
  · by_cases hkj : k = j
    · rw [hkj, hset] at hk; cases hk
    · rw [(hothers k hkj).1]; exact h.labels_unset k (by rwa [(hothers k hkj).2] at hk)

theorem State.jump_inv {s : State} (h : s.Inv) (hphase : s.phase = .execute) {target : Nat}
    (ht : target ≤ s.cfg.progMax) : (s.jump target).Inv :=
  h.executing hphase rfl h.regs_fit h.labels_bound h.labels_unset ht

/-- An instruction's own fault is none of the tokenizer's two, and its value fits. -/
theorem OwnFault.raise_inv {i : Instr} {s : State} {c : FaultCause} {v : Int} (h : s.Inv) (hown : OwnFault i s c v) :
    (s.raise c v s.pc).Inv := by
  have hbyte (b : Byte) := fits_fault_of_lt_256 h.config b.isLt
  have hreg (r : Byte) := fits_fault_of_cell (h.regs_fit r)
  rcases hown with ⟨_, rd, -, rfl, rfl, -⟩ | ⟨r, -, rfl, rfl, -⟩ | ⟨_, -, rfl, rfl, -⟩ | ⟨r, -, rfl, rfl, -⟩ |
    ⟨_, j, -, -, rfl, rfl, -⟩ | ⟨j, -, rfl, rfl, -⟩ | ⟨_, _, _, -, rfl, rfl⟩
  · exact State.raise_inv h (by simp) (hbyte rd) (by simp)
  · exact State.raise_inv h (by simp) (hreg r) (by simp)
  · exact State.raise_inv h (by simp) (hbyte 40) (by simp)
  · exact State.raise_inv h (by simp) (hreg r) (by simp)
  · exact State.raise_inv h (by simp) (hbyte j) (by simp)
  · exact State.raise_inv h (by simp) (hbyte j) (by simp)
  · exact State.raise_inv h (by simp) (hbyte 44) (by simp)

/-- The instructions with a destination have two operand bytes (R124). -/
theorem arity_of_destination {i : Instr} {rd : Byte} (h : destination? i = some rd) : i.arity = 2 := by
  cases i <;> cases h <;> rfl

/-- An instruction whose bytes end below N keeps the invariant. -/
theorem exec_inv {i : Instr} {s t : State} (h : s.Inv) (hphase : s.phase = .execute) (hpc : s.pc + i.arity < s.progLen)
    (he : exec i s = .next t) : t.Inv := by
  have hw : 9 ≤ s.cfg.regW := Config.nine_le_regW h.config
  obtain ⟨u, hu, hcases⟩ := exec_cases i s
  cases hu.symm.trans he
  rcases hcases with ⟨-, rfl⟩ | ⟨rd, v, hrd, rfl, hv⟩ | ⟨text, rfl, hi⟩ | ⟨j, v, rfl, hj⟩ | ⟨j, rfl, -, -⟩ |
    ⟨c, v, rfl, hown⟩
  · exact State.halt_inv h hphase
  · rw [arity_of_destination hrd] at hpc
    refine storeValue_inv h hphase hpc rd ?_
    rcases hv with ⟨b, -, rfl⟩ | ⟨r, -, rfl⟩ | ⟨b, -, hsum⟩ | ⟨r, -, hsum⟩
    · exact immValue_fits hw b
    · exact h.regs_fit r
    · exact addCells_fits (by omega) hsum
    · exact addCells_fits (by omega) hsum
  · refine printLine_inv h hphase ?_ text
    rcases hi with ⟨r, rfl, -⟩ | ⟨c, rfl, -⟩ <;> exact hpc
  · have hnext : s.pc + 1 < s.progLen → s.pc + 2 ≤ s.cfg.progMax := fun hlt => Nat.le_trans hlt h.store_bound
    rcases hj with ⟨rfl, rfl⟩ | ⟨r, rfl, -, -, rfl⟩ | ⟨rfl, -, -, hle⟩
    · exact labelSetTo_inv h hphase hpc j (hnext hpc)
    · exact labelSetTo_inv h hphase hpc j (hnext hpc)
    · exact labelSetTo_inv h hphase hpc j hle
  · exact State.jump_inv h hphase (h.labels_bound j)
  · exact hown.raise_inv h

theorem execStep_inv {s t : State} (h : s.Inv) (hphase : s.phase = .execute) (he : execStep s = .next t) : t.Inv := by
  have hbyte (b : Byte) := fits_fault_of_lt_256 h.config b.isLt
  rcases execStep_cases s with ⟨-, e⟩ | ⟨op, -, -, -, e⟩ | ⟨op, -, -, -, e⟩ | ⟨op, a, -, -, -, -, -, e⟩ |
    ⟨i, -, -, -, hpc, e⟩ | ⟨-, e⟩
  · cases e.symm.trans he
    exact State.raise_inv h (by simp) (fits_fault_of_le_progMax h.pc_bound) (by simp)
  · cases e.symm.trans he
    exact State.raise_inv h (by simp) (hbyte op) (by simp)
  · cases e.symm.trans he
    exact State.raise_inv h (by simp) (hbyte op) (by simp)
  · cases e.symm.trans he
    exact State.raise_inv h (by simp) (fits_fault_of_le_progMax h.store_bound) (by simp)
  · exact exec_inv h hphase hpc (e.symm.trans he)
  · cases e.symm.trans he

/-- The core's own step keeps the invariant. -/
theorem coreStep_inv {s t : State} (h : s.Inv) (hstep : coreStep s = .next t) : t.Inv := by
  rcases coreStep_cases s with ⟨-, e⟩ | ⟨later, e⟩ | ⟨hphase, e⟩
  · cases e.symm.trans hstep; exact h
  · cases e.symm.trans hstep; exact State.resetWith_inv h.config later
  · exact execStep_inv h hphase (e.symm.trans hstep)

/-! ## The core always steps -/

/-- Where the store lists every byte below N, the executor's step answers a next state. -/
theorem execStep_next {s : State} (h : s.Inv) : ∃ t, execStep s = .next t := by
  rcases execStep_cases s with ⟨-, e⟩ | ⟨op, -, -, -, e⟩ | ⟨op, -, -, -, e⟩ | ⟨op, a, -, -, -, -, -, e⟩ |
    ⟨i, -, -, -, -, e⟩ | ⟨⟨k, -, hk, hnone⟩, -⟩
  · exact ⟨_, e⟩
  · exact ⟨_, e⟩
  · exact ⟨_, e⟩
  · exact ⟨_, e⟩
  · rw [e]; exact exec_next i s
  · have := (h.store_listed k).2 hk
    simp [hnone] at this

theorem coreStep_next {s : State} (h : s.Inv) : ∃ t, coreStep s = .next t := by
  rcases coreStep_cases s with ⟨-, e⟩ | ⟨later, e⟩ | ⟨-, e⟩
  · exact ⟨_, e⟩
  · exact ⟨_, e⟩
  · rw [e]; exact execStep_next h

/-! ## The obligations -/

/-- Settles O4, by the four ways a step is taken. -/
theorem everyStepKeepsTheInvariant : Obligations.EveryStepKeepsTheInvariant := by
  intro s t h hstep
  rcases step_cases s with ⟨later, -, e⟩ | ⟨b, later, hphase, -, e⟩ | ⟨later, hphase, -, e⟩ | ⟨p, -, e⟩
  · cases e.symm.trans hstep
    exact State.resetWith_inv h.config later
  · cases e.symm.trans hstep
    exact acceptByte_inv (h.withPending later) hphase b
  · cases e.symm.trans hstep
    exact acceptEnd_inv (h.withPending later) hphase
  · exact coreStep_inv (h.withPending p) (e.symm.trans hstep)

/-- Settles O5: the one stop of the model is a byte below N that the store does not list. -/
theorem invariantStatesAlwaysStep : Obligations.InvariantStatesAlwaysStep := by
  intro s h
  rcases step_cases s with ⟨later, -, e⟩ | ⟨b, later, -, -, e⟩ | ⟨later, -, -, e⟩ | ⟨p, -, e⟩
  · exact ⟨_, e⟩
  · exact ⟨_, e⟩
  · exact ⟨_, e⟩
  · rw [e]; exact coreStep_next (h.withPending p)

/-- Settles O6: PC_W is the length of PROG_MAX in bits, and the invariant bounds each value. -/
theorem valuesFitTheirWidths : Obligations.ValuesFitTheirWidths := by
  refine ⟨fun c => ⟨progMax_lt_two_pow_pcWidth c, fun w hw => ?_⟩, fun s h => ?_⟩
  · rw [pcWidth]
    split
    · exact Nat.zero_le w
    · exact (Nat.log2_lt ‹_›).2 hw
  · have hfits {n : Nat} (hn : n ≤ s.cfg.progMax) : n < 2 ^ pcWidth s.cfg :=
      hn.trans_lt (progMax_lt_two_pow_pcWidth s.cfg)
    have hpos : s.faultPos ≤ s.cfg.progMax := by
      by_cases hf : s.phase = .faulted
      · rw [h.fault_pos hf]
        split
        · exact h.store_bound
        · exact h.pc_bound
      · obtain ⟨-, -, hzero⟩ := h.no_fault hf
        rw [hzero]; exact Nat.zero_le _
    obtain ⟨hlow, hhigh⟩ := h.fault_value
    exact ⟨hfits h.pc_bound, fun j => hfits (h.labels_bound j), hfits h.store_bound, hfits hpos, hlow,
      Int.lt_of_le_sub_one hhigh⟩

/-- Settles O3; the parameters of State.reset are in their ranges. -/
theorem resetStateMeetsTheInvariant : Obligations.ResetStateMeetsTheInvariant :=
  ⟨State.resetWith_inv (by decide) [], fun _ later hc => State.resetWith_inv hc later⟩

end Sys2Proof.Machine

/-! SUPPORT and proofs for decoding and encoding, the canonical text and the assembler. -/

namespace Sys2Proof

/-! ## Decoding, by what the opcode map says (R120, R123, R125) -/

theorem decode_of_unlisted {op : Byte} (h : arity? op = none) (rest : List Byte) :
    decode (op :: rest) = .error (.unknownOpcode op) := by
  simp [decode, h]

/-- An assembled opcode has exactly its arity of operands. -/
theorem length_of_assemble {op : Byte} {bs : List Byte} {i : Instr} (h : assemble op bs = some i) :
    arity? op = some bs.length := by
  obtain ⟨rfl, rfl⟩ := assemble_eq_some h
  rw [arity?_opcode, Instr.operands_length]

theorem decode_of_truncated {op : Byte} {a : Nat} {rest : List Byte} (ha : arity? op = some a) (h : rest.length < a) :
    decode (op :: rest) = .error (.truncated op) := by
  have hnone : assemble op (rest.take a) = none := by
    rw [Option.eq_none_iff_forall_ne_some]
    intro i hi
    have hlen := Option.some.inj ((length_of_assemble hi).symm.trans ha)
    rw [List.length_take] at hlen
    omega
  simp [decode, ha, hnone]

theorem decode_of_enough {op : Byte} {a : Nat} {rest : List Byte} (ha : arity? op = some a) (h : a ≤ rest.length) :
    ∃ i, assemble op (rest.take a) = some i ∧ decode (op :: rest) = .ok (i, rest.drop a) := by
  obtain ⟨i, hi⟩ := assemble_of_arity ha (List.length_take_of_le h)
  exact ⟨i, hi, by simp [decode, ha, hi]⟩

theorem decode_encode_append (i : Instr) (rest : List Byte) : decode (encode i ++ rest) = .ok (i, rest) := by
  rw [encode, List.cons_append, decode, arity?_opcode]
  simp only [← Instr.operands_length i, List.take_left, List.drop_left, assemble_opcode_operands]

theorem eq_encode_append_of_decode {bytes rest : List Byte} {i : Instr} (h : decode bytes = .ok (i, rest)) :
    bytes = encode i ++ rest := by
  cases bytes with
  | nil => cases h
  | cons op tail =>
    cases ha : arity? op with
    | none => rw [decode_of_unlisted ha] at h; cases h
    | some a =>
      rcases Nat.lt_or_ge tail.length a with hshort | henough
      · rw [decode_of_truncated ha hshort] at h; cases h
      · obtain ⟨j, hj, hdecode⟩ := decode_of_enough ha henough
        cases hdecode.symm.trans h
        obtain ⟨hop, hoperands⟩ := assemble_eq_some hj
        rw [encode, ← hop, ← hoperands, List.cons_append, List.take_append_drop]

/-! ## The canonical text (R111, R112) -/

theorem encodeToken_length (b : Byte) : (encodeToken b).length = 16 := by
  have hpair (bit : Bool) : (encodePair bit).length = 2 := by cases bit <;> rfl
  simp [encodeToken, List.length_flatMap, hpair]

/-- A canonical token is made of its two letters. -/
theorem mem_encodeToken {b x : Byte} (h : x ∈ encodeToken b) : x = 0x61 ∨ x = 0x62 := by
  obtain ⟨i, -, hx⟩ := List.mem_flatMap.1 h
  rw [encodePair] at hx
  split at hx
  · exact .inl (by simpa using hx)
  · simpa using hx

/-- The canonical pairs of a row of bits decode to those bits. -/
theorem decodeToken_flatMap_encodePair_getLsbD {bits : List Bool} {i : Nat} (hi : i < 8) (hlen : i < bits.length) :
    (decodeToken (bits.flatMap encodePair)).getLsbD i = bits[i] := by
  induction bits generalizing i with
  | nil => exact absurd hlen (Nat.not_lt_zero i)
  | cons bit bits ih =>
    obtain ⟨a, b, hpair, hab⟩ : ∃ a b, encodePair bit = [a, b] ∧ decide (a = b) = bit := by
      cases bit
      · exact ⟨0x61, 0x62, rfl, rfl⟩
      · exact ⟨0x61, 0x61, rfl, rfl⟩
    rw [List.flatMap_cons, hpair, List.cons_append, List.cons_append, List.nil_append]
    cases i with
    | zero => rw [decodeToken_getLsbD_zero, hab, List.getElem_cons_zero]
    | succ i =>
      rw [decodeToken_getLsbD_succ _ _ _ hi, ih (by omega) (Nat.lt_of_succ_lt_succ hlen), List.getElem_cons_succ]

theorem decodeToken_encodeToken (b : Byte) : decodeToken (encodeToken b) = b := by
  have hbits : encodeToken b = ((List.range 8).map b.getLsbD).flatMap encodePair := by
    rw [List.flatMap_map, encodeToken]
  refine BitVec.eq_of_getLsbD_eq fun i hi => ?_
  rw [hbits, decodeToken_flatMap_encodePair_getLsbD hi (by simpa using hi), List.getElem_map, List.getElem_range]

/-- Bytes that are no delimiters join the run being read. -/
theorem splitTokensFrom_append {delimiters t : List Byte} (ht : ∀ b ∈ t, b ∉ delimiters) (current rest : List Byte) :
    splitTokensFrom delimiters current (t ++ rest) = splitTokensFrom delimiters (current ++ t) rest := by
  induction t generalizing current with
  | nil => simp
  | cons b t ih =>
    obtain ⟨hb, hrest⟩ := List.forall_mem_cons.1 ht
    rw [List.cons_append, splitTokensFrom, if_neg (by simpa using hb), ih hrest, List.append_assoc,
      List.singleton_append]

theorem splitTokensFrom_delimiter {delimiters current : List Byte} {d : Byte} (hd : d ∈ delimiters)
    (hne : current ≠ []) (rest : List Byte) :
    splitTokensFrom delimiters current (d :: rest) = current :: splitTokens delimiters rest := by
  simp [splitTokensFrom, splitTokens, hd, hne]

theorem splitTokensFrom_end {current : List Byte} (delimiters : List Byte) (hne : current ≠ []) :
    splitTokensFrom delimiters current [] = [current] := by
  simp [splitTokensFrom, hne]

/-- A text with a first token and a delimiter after it. -/
theorem splitTokens_token_delimiter {delimiters t : List Byte} {d : Byte} (ht : ∀ b ∈ t, b ∉ delimiters)
    (hne : t ≠ []) (hd : d ∈ delimiters) (rest : List Byte) :
    splitTokens delimiters (t ++ d :: rest) = t :: splitTokens delimiters rest := by
  rw [splitTokens, splitTokensFrom_append ht, List.nil_append, splitTokensFrom_delimiter hd hne]

theorem splitTokens_token {delimiters t : List Byte} (ht : ∀ b ∈ t, b ∉ delimiters) (hne : t ≠ []) :
    splitTokens delimiters t = [t] := by
  have := splitTokensFrom_append ht [] []
  rw [List.append_nil, List.nil_append, splitTokensFrom_end _ hne] at this
  exact this

theorem encodeText_cons_cons (b b' : Byte) (rest : List Byte) :
    encodeText (b :: b' :: rest) = encodeToken b ++ 0x20 :: encodeText (b' :: rest) := rfl

theorem splitTokens_encodeText {delimiters : List Byte} (hspace : 0x20 ∈ delimiters)
    (hletters : ∀ b, ∀ x ∈ encodeToken b, x ∉ delimiters) (bytes : List Byte) :
    splitTokens delimiters (encodeText bytes) = bytes.map encodeToken := by
  have hne (b : Byte) : encodeToken b ≠ [] := List.ne_nil_of_length_pos (by simp [encodeToken_length])
  induction bytes with
  | nil => rfl
  | cons b rest ih =>
    cases rest with
    | nil => exact splitTokens_token (hletters b) (hne b)
    | cons b' rest =>
      rw [encodeText_cons_cons, splitTokens_token_delimiter (hletters b) (hne b) hspace]
      exact congrArg _ ih

end Sys2Proof

namespace Sys2Proof.Machine

/-! ## The obligations -/

/-- Settles O7: the encoding decodes to its instruction, and what decodes is an encoding. -/
theorem decodeAndEncodeAgree : Obligations.DecodeAndEncodeAgree := fun _ rest i =>
  ⟨eq_encode_append_of_decode, fun h => h ▸ decode_encode_append i rest⟩

/-- Settles O8: an opcode is unlisted, or has fewer bytes after it than its arity, or enough. -/
theorem decodingFailsOnlyAsTheMapSays : Obligations.DecodingFailsOnlyAsTheMapSays := by
  intro op rest
  have hlisted : arity? op = none ↔ op.toNat ∉ [0, 1, 2, 10, 11, 20, 21, 40, 41, 42, 43, 44] := arity?_eq_none_iff op
  rw [← hlisted]
  cases ha : arity? op with
  | none => simp [decode_of_unlisted ha]
  | some a =>
    rcases Nat.lt_or_ge rest.length a with hshort | henough
    · simp [decode_of_truncated ha hshort, hshort]
    · obtain ⟨i, -, h⟩ := decode_of_enough ha henough
      simp [h, henough]

/-- Settles O9, by computing the twelve words. -/
theorem exampleWordsDecode : Obligations.ExampleWordsDecode :=
  ⟨rfl, rfl, rfl, rfl, rfl, rfl, rfl, rfl, rfl, rfl, rfl, rfl⟩

/-- Settles O11: the canonical letters are no delimiters, and the space is one. -/
theorem canonicalTextDecodesToItsBytes : Obligations.CanonicalTextDecodesToItsBytes := by
  intro c bytes hspace ha hb
  have hletters (b x : Byte) (hx : x ∈ encodeToken b) : x ∉ c.delimiters := by
    rcases mem_encodeToken hx with rfl | rfl
    · exact ha
    · exact hb
  refine ⟨splitTokens_encodeText hspace hletters bytes, fun b _ => ⟨?_, decodeToken_encodeToken b⟩⟩
  simpa [tokenWellFormed, encodeToken_length] using hletters b

/-- Settles O12, by the three kinds of line. -/
theorem assembledLinesAreInstructions : Obligations.AssembledLinesAreInstructions := by
  intro line bytes h
  rw [asmLine] at h
  split at h
  · cases h; exact .inl rfl
  · split at h
    · split at h
      · cases h; exact .inr (.inl ⟨_, rfl⟩)
      · cases h
    · split at h
      · split at h
        · next code _ bs _ _ harity =>
          cases h
          obtain ⟨i, hi⟩ := assemble_of_arity harity rfl
          obtain ⟨hop, hoperands⟩ := assemble_eq_some hi
          exact .inr (.inr ⟨i, by rw [encode, ← hop, ← hoperands]⟩)
        · cases h
      · cases h
  · cases h

/-- Settles O13, by computing the lines. -/
theorem exampleLinesAssemble : Obligations.ExampleLinesAssemble := by
  unfold Obligations.ExampleLinesAssemble
  decide

end Sys2Proof.Machine

/-! SUPPORT and proofs for the tokenizer: it reads one token at a time, and so computes the batch reading of a text. -/

namespace Sys2Proof

/-! ## Decoding a token as it grows (R102, R104) -/

/-- A byte without its partner packs no bit. -/
theorem decodeToken_append_first {t : List Byte} (h : t.length % 2 = 0) (a : Byte) :
    decodeToken (t ++ [a]) = decodeToken t := by
  induction t using List.twoStepInduction with
  | nil => rfl
  | singleton x => cases h
  | cons_cons x y t ih _ =>
    have ht : t.length % 2 = 0 := by simp only [List.length_cons] at h; omega
    rw [List.cons_append, List.cons_append, decodeToken, decodeToken, ih ht]

/-- A completed pair sets the next bit when its bytes are equal. -/
theorem decodeToken_append_pair {t : List Byte} (h : t.length % 2 = 0) (a b : Byte) :
    decodeToken (t ++ [a, b]) = decodeToken t ||| (if a = b then 1 else 0 : Byte) <<< (t.length / 2) := by
  induction t using List.twoStepInduction with
  | nil => simp [decodeToken]
  | singleton x => cases h
  | cons_cons x y t ih _ =>
    have ht : t.length % 2 = 0 := by simp only [List.length_cons] at h; omega
    have hlen : (x :: y :: t).length / 2 = t.length / 2 + 1 := by simp only [List.length_cons]; omega
    rw [List.cons_append, List.cons_append, decodeToken, decodeToken, ih ht, hlen,
      BitVec.shiftLeft_add, BitVec.shiftLeft_or_distrib]
    ac_rfl

/-! ## Splitting a text into tokens (R100, R101) -/

theorem splitTokensFrom_skip {delimiters : List Byte} {d : Byte} (hd : d ∈ delimiters) (rest : List Byte) :
    splitTokensFrom delimiters [] (d :: rest) = splitTokensFrom delimiters [] rest := by
  simp [splitTokensFrom, hd]

theorem splitTokensFrom_byte {delimiters : List Byte} {b : Byte} (hb : b ∉ delimiters) (current rest : List Byte) :
    splitTokensFrom delimiters current (b :: rest) = splitTokensFrom delimiters (current ++ [b]) rest := by
  simp [splitTokensFrom, hb]

/-- The run being read only grows until its token ends. -/
theorem splitTokensFrom_first {current : List Byte} (hne : current ≠ []) (delimiters text : List Byte) :
    ∃ t ts, splitTokensFrom delimiters current text = t :: ts ∧ current.length ≤ t.length := by
  induction text generalizing current with
  | nil => exact ⟨current, [], splitTokensFrom_end _ hne, le_rfl⟩
  | cons b text ih =>
    by_cases hb : b ∈ delimiters
    · exact ⟨current, _, splitTokensFrom_delimiter hb hne text, le_rfl⟩
    · obtain ⟨t, ts, e, hlen⟩ := ih (current := current ++ [b]) (by simp)
      exact ⟨t, ts, (splitTokensFrom_byte hb current text).trans e, by simp at hlen; omega⟩

end Sys2Proof

namespace Sys2Proof.Machine

/-! ## The batch reading, one token at a time (R108, R110) -/

theorem loadTokens_of_length_ne {t : List Byte} (h : t.length ≠ 16) (progMax : Nat) (bytes : List Byte)
    (ts : List (List Byte)) : loadTokens progMax bytes (t :: ts) = .formatError (min t.length 17) bytes := by
  rw [loadTokens, if_pos h]

theorem loadTokens_of_full {t : List Byte} {progMax : Nat} {bytes : List Byte} (h : t.length = 16)
    (hfull : bytes.length = progMax) (ts : List (List Byte)) :
    loadTokens progMax bytes (t :: ts) = .outOfMemory bytes := by
  rw [loadTokens, if_neg (not_not.2 h), if_pos hfull]

theorem loadTokens_of_room {t : List Byte} {progMax : Nat} {bytes : List Byte} (h : t.length = 16)
    (hroom : bytes.length ≠ progMax) (ts : List (List Byte)) :
    loadTokens progMax bytes (t :: ts) = loadTokens progMax (bytes ++ [decodeToken t]) ts := by
  rw [loadTokens, if_neg (not_not.2 h), if_neg hroom]

/-- The canonical tokens of bytes that fit are all stored. -/
theorem loadTokens_map_encodeToken {progMax : Nat} {bytes bs : List Byte} (h : bytes.length + bs.length ≤ progMax) :
    loadTokens progMax bytes (bs.map encodeToken) = .ready (bytes ++ bs) := by
  induction bs generalizing bytes with
  | nil => rw [List.append_nil]; rfl
  | cons b bs ih =>
    rw [List.length_cons] at h
    rw [List.map_cons, loadTokens_of_room (encodeToken_length b) (by omega), decodeToken_encodeToken,
      ih (by simp; omega), List.append_assoc, List.singleton_append]

/-! ## The tokenizer in the middle of a token (R45, R105) -/

/-- The tokenizer has read the bytes `current` of a token: it counts them, holds their bits, and has latched the last one
when it has no partner yet. -/
structure HasRead (s : State) (current : List Byte) : Prop where
  len : s.tkLen = current.length
  acc : s.tkAcc = decodeToken current
  first : current.length % 2 = 1 → current.getLast? = some s.tkFirst

theorem HasRead.nil_iff {s : State} : HasRead s [] ↔ s.tkLen = 0 ∧ s.tkAcc = 0 :=
  ⟨fun h => ⟨h.len, h.acc⟩, fun h => ⟨h.1, h.2, nofun⟩⟩

theorem HasRead.withPending {s : State} {current : List Byte} (h : HasRead s current) (p : List HostTransfer) :
    HasRead { s with pending := p } current :=
  ⟨h.len, h.acc, h.first⟩

/-- The comparator changes the tokenizer's state alone. -/
theorem packByte_around (b : Byte) (s : State) : ∃ len first acc, packByte b s = s.around len first acc s.pending := by
  rcases packByte_cases b s with ⟨-, e⟩ | ⟨-, -, e⟩ | ⟨-, -, e⟩ <;> exact ⟨_, _, _, e⟩

/-- A packed byte joins the token read so far. -/
theorem packByte_hasRead {s : State} {current : List Byte} (h : HasRead s current) (b : Byte) :
    HasRead (packByte b s) (current ++ [b]) := by
  have hlen : s.tkLen + 1 = (current ++ [b]).length := by simp [h.len]
  rcases packByte_cases b s with ⟨heven, e⟩ | hodd
  · rw [e]
    refine ⟨hlen, ?_, fun _ => List.getLast?_concat⟩
    exact h.acc.trans (decodeToken_append_first (h.len ▸ heven) b).symm
  have hmod : s.tkLen % 2 = 1 := hodd.elim And.left And.left
  obtain ⟨front, rfl⟩ := List.getLast?_eq_some_iff.1 (h.first (h.len ▸ hmod))
  have hfront : s.tkLen = front.length + 1 := by simpa using h.len
  have heven : front.length % 2 = 0 := by omega
  have hhalf : (s.tkLen - 1) / 2 = front.length / 2 := by rw [hfront, Nat.add_sub_cancel]
  have hacc := h.acc.trans (decodeToken_append_first heven s.tkFirst)
  have hpair := decodeToken_append_pair heven s.tkFirst b
  have hwhole {P : Prop} (hlast : (front ++ [s.tkFirst] ++ [b]).length % 2 = 1) : P := by omega
  rcases hodd with ⟨-, heq, e⟩ | ⟨-, hne, e⟩ <;> rw [e] <;> refine ⟨hlen, ?_, hwhole⟩ <;>
    rw [List.append_assoc, List.singleton_append, hpair]
  · rw [if_pos heq.symm, hhalf, hacc]
  · rw [if_neg (Ne.symm hne)]; simp [hacc]

/-- The bytes of a token, one step each. -/
theorem runSteps_token {s : State} {current t : List Byte} {later : List HostTransfer} (hphase : s.phase = .tokenize)
    (h : HasRead s current) (ht : ∀ b ∈ t, b ∉ s.cfg.delimiters) (hlen : current.length + t.length ≤ 16)
    (hpend : s.pending = t.map .putByte ++ later) :
    ∃ len first acc, runSteps t.length s = .next (s.around len first acc later) ∧
      HasRead (s.around len first acc later) (current ++ t) := by
  induction t generalizing s current with
  | nil =>
    rw [List.map_nil, List.nil_append] at hpend
    subst hpend
    exact ⟨s.tkLen, s.tkFirst, s.tkAcc, rfl, by rw [List.append_nil]; exact h⟩
  | cons b t ih =>
    obtain ⟨hb, hrest⟩ := List.forall_mem_cons.1 ht
    rw [List.length_cons] at hlen ⊢
    have hread := packByte_hasRead (h.withPending (t.map .putByte ++ later)) b
    have hpack := acceptByte_of_incomplete (s := { s with pending := t.map .putByte ++ later }) hb
      (by have := h.len; simp only; omega)
    obtain ⟨len, first, acc, e⟩ := packByte_around b { s with pending := t.map .putByte ++ later }
    rw [e] at hread hpack
    rw [runSteps_succ_of_next ((step_putByte hphase hpend).trans (congrArg _ hpack))]
    obtain ⟨len', first', acc', hrun, hread'⟩ := ih (s := s.around len first acc (t.map .putByte ++ later))
      hphase hread hrest (by simp; omega) rfl
    exact ⟨len', first', acc', hrun, by rw [List.append_cons]; exact hread'⟩

/-! ## The program store as a list of bytes -/

theorem committed_storeIs {s : State} {current bytes : List Byte} (h : HasRead s current) (hstore : StoreIs s bytes) :
    StoreIs (committed s) (bytes ++ [decodeToken current]) := by
  obtain ⟨hlen, hread⟩ := hstore
  refine ⟨by simp [committed, hlen], fun k => ?_⟩
  change (s.prog.write s.progLen s.tkAcc).read k = _
  rw [Memory.read_write, hlen, h.acc, hread]
  by_cases hk : k = bytes.length
  · subst hk; simp
  · rw [if_neg hk]
    rcases Nat.lt_or_gt_of_ne hk with hlt | hgt
    · rw [List.getElem?_append_left hlt]
    · rw [List.getElem?_eq_none (Nat.le_of_lt hgt), List.getElem?_eq_none (by simpa using hgt)]

/-! ## A whole text (R343) -/

/-- The tokenizer leaves the executor's state as it is: registers, labels, pc, the output; and the parameters. -/
def ExecutorKept (s t : State) : Prop :=
  SameRegs s t ∧ SameLabels s t ∧ t.pc = s.pc ∧ t.out = s.out ∧ t.cfg = s.cfg

theorem ExecutorKept.trans {s t u : State} (h : ExecutorKept s t) (k : ExecutorKept t u) : ExecutorKept s u := by
  obtain ⟨hregs, hlabels, hpc, hout, hcfg⟩ := h
  obtain ⟨kregs, klabels, kpc, kout, kcfg⟩ := k
  exact ⟨fun r => (kregs r).trans (hregs r),
    fun j => ⟨(klabels j).1.trans (hlabels j).1, (klabels j).2.trans (hlabels j).2⟩,
    kpc.trans hpc, kout.trans hout, kcfg.trans hcfg⟩

theorem acceptByte_executorKept (b : Byte) (s : State) (p : List HostTransfer) :
    ExecutorKept s (acceptByte b { s with pending := p }) := by
  obtain ⟨hregs, hlabels, hpc, hout, hcfg, -⟩ := acceptByte_frame b { s with pending := p }
  exact ⟨hregs, hlabels, hpc, hout, hcfg⟩

theorem acceptEnd_executorKept {s : State} (hpc : s.pc = 0) (p : List HostTransfer) :
    ExecutorKept s (acceptEnd { s with pending := p }) := by
  obtain ⟨hregs, hlabels, hstart, hout, hcfg, -⟩ := acceptEnd_frame { s with pending := p }
  exact ⟨hregs, hlabels, (hstart hpc).trans hpc.symm, hout, hcfg⟩

/-- `t` is the core as the batch reading `r` of the text says. -/
def Loaded (t : State) : LoadResult → Prop
  | .ready bytes => t.phase = .execute ∧ t.pending = [] ∧ StoreIs t bytes ∧ t.tkLen = 0 ∧ t.faultCause = .none
  | .formatError length bytes =>
    t.phase = .faulted ∧ StoreIs t bytes ∧ t.faultCause = .formatError ∧ t.faultValue = length ∧
      t.faultPos = bytes.length
  | .outOfMemory bytes =>
    t.phase = .faulted ∧ StoreIs t bytes ∧ t.faultCause = .outOfMemory ∧ t.faultValue = t.cfg.progMax ∧
      t.faultPos = bytes.length

theorem raiseFormatError_loaded {s : State} {bytes : List Byte} (hstore : StoreIs s bytes) (length : Nat) :
    Loaded (raiseFormatError length s) (.formatError length bytes) :=
  ⟨rfl, hstore, rfl, rfl, hstore.1⟩

theorem raiseOutOfMemory_loaded {s : State} {bytes : List Byte} (hstore : StoreIs s bytes) :
    Loaded (raiseOutOfMemory s) (.outOfMemory bytes) :=
  ⟨rfl, hstore, rfl, rfl, hstore.1⟩

theorem textTransfers_cons (b : Byte) (text : List Byte) :
    textTransfers (b :: text) = .putByte b :: textTransfers text := rfl

/-- A core that has faulted in the middle of a text stays as it is for the rest of it. -/
theorem runSteps_faulted_text {s : State} {text : List Byte} (hphase : s.phase = .faulted)
    (hpend : s.pending = textTransfers text) (n : Nat) : runSteps n s = .next s := by
  refine runSteps_of_step_self (step_ended_input (.inr hphase) fun x hx => ?_) n
  rw [hpend, textTransfers, List.mem_append, List.mem_map, List.mem_singleton] at hx
  rcases hx with ⟨b, -, rfl⟩ | rfl <;> exact ⟨nofun, nofun⟩

/-- In the middle of a text: the bytes `current` of a token have been read, and `bytes` have been stored before it. -/
structure InText (s : State) (current bytes : List Byte) : Prop where
  phase : s.phase = .tokenize
  read : HasRead s current
  short : current.length ≤ 16
  store : StoreIs s bytes
  no_fault : s.faultCause = .none

theorem InText.withPending {s : State} {current bytes : List Byte} (h : InText s current bytes)
    (p : List HostTransfer) : InText { s with pending := p } current bytes :=
  ⟨h.phase, h.read.withPending p, h.short, h.store, h.no_fault⟩

theorem InText.tkLen_ne_zero {s : State} {current bytes : List Byte} (h : InText s current bytes)
    (hne : current ≠ []) : s.tkLen ≠ 0 := by
  rw [h.read.len]
  exact fun h0 => hne (List.length_eq_zero_iff.1 h0)

/-- The batch reading of the rest of a text, from the middle of it. -/
def loadRest (c : Config) (current bytes text : List Byte) : LoadResult :=
  loadTokens c.progMax bytes (splitTokensFrom c.delimiters current text)

/-- The end of the text ends the token that is being read. -/
theorem acceptEnd_loaded {s : State} {current bytes : List Byte} (h : InText s current bytes) (hpend : s.pending = []) :
    Loaded (acceptEnd s) (loadRest s.cfg current bytes []) := by
  have ⟨_, hread, hshort, hstore, hfault⟩ := h
  rw [loadRest]
  by_cases hcur : current = []
  · subst hcur
    rw [acceptEnd_between hread.len]
    exact ⟨rfl, hpend, hstore, hread.len, hfault⟩
  rw [splitTokensFrom_end _ hcur]
  by_cases h16 : current.length = 16
  · by_cases hfull : bytes.length = s.cfg.progMax
    · rw [acceptEnd_of_full (hread.len.trans h16) (hstore.1.trans hfull), loadTokens_of_full h16 hfull]
      exact raiseOutOfMemory_loaded hstore
    · rw [acceptEnd_of_room (hread.len.trans h16) (hstore.1 ▸ hfull), loadTokens_of_room h16 hfull]
      exact ⟨rfl, hpend, committed_storeIs hread hstore, rfl, hfault⟩
  · rw [acceptEnd_of_incomplete (h.tkLen_ne_zero hcur) (hread.len ▸ h16), loadTokens_of_length_ne h16,
      min_eq_left (by omega), hread.len]
    exact raiseFormatError_loaded hstore _

/-- `t`, with `text` still to come, is on the way to the batch reading `r`: in the middle of the text, or faulted. -/
def OnTheWay (t : State) (c : Config) (text : List Byte) (r : LoadResult) : Prop :=
  (∃ current bytes, InText t current bytes ∧ r = loadRest c current bytes text) ∨ t.phase = .faulted ∧ Loaded t r

theorem acceptByte_delimiter_onTheWay {s : State} {current bytes : List Byte} {d : Byte} (h : InText s current bytes)
    (hd : d ∈ s.cfg.delimiters) (text : List Byte) :
    OnTheWay (acceptByte d s) s.cfg text (loadRest s.cfg current bytes (d :: text)) := by
  have ⟨hphase, hread, hshort, hstore, hfault⟩ := h
  rw [loadRest]
  by_cases hcur : current = []
  · subst hcur
    rw [acceptByte_delimiter_between hd hread.len, splitTokensFrom_skip hd]
    exact .inl ⟨[], bytes, h, rfl⟩
  rw [splitTokensFrom_delimiter hd hcur]
  by_cases h16 : current.length = 16
  · by_cases hfull : bytes.length = s.cfg.progMax
    · rw [acceptByte_delimiter_of_full hd (hread.len.trans h16) (hstore.1.trans hfull), loadTokens_of_full h16 hfull]
      exact .inr ⟨rfl, raiseOutOfMemory_loaded hstore⟩
    · rw [acceptByte_delimiter_of_room hd (hread.len.trans h16) (hstore.1 ▸ hfull), loadTokens_of_room h16 hfull]
      exact .inl ⟨[], _, ⟨hphase, HasRead.nil_iff.2 ⟨rfl, rfl⟩, Nat.zero_le _, committed_storeIs hread hstore, hfault⟩,
        rfl⟩
  · rw [acceptByte_delimiter_of_incomplete hd (h.tkLen_ne_zero hcur) (hread.len ▸ h16), loadTokens_of_length_ne h16,
      min_eq_left (by omega), hread.len]
    exact .inr ⟨rfl, raiseFormatError_loaded hstore _⟩

theorem acceptByte_token_onTheWay {s : State} {current bytes : List Byte} {b : Byte} (h : InText s current bytes)
    (hb : b ∉ s.cfg.delimiters) (text : List Byte) :
    OnTheWay (acceptByte b s) s.cfg text (loadRest s.cfg current bytes (b :: text)) := by
  have ⟨hphase, hread, hshort, hstore, hfault⟩ := h
  rw [loadRest, splitTokensFrom_byte hb]
  by_cases h16 : current.length = 16
  · obtain ⟨t, ts, e, hlong⟩ := splitTokensFrom_first (current := current ++ [b]) (by simp) s.cfg.delimiters text
    rw [List.length_append, h16, List.length_singleton] at hlong
    rw [acceptByte_of_seventeenth hb (hread.len.trans h16), e, loadTokens_of_length_ne (by omega), min_eq_right hlong]
    exact .inr ⟨rfl, raiseFormatError_loaded hstore _⟩
  · have hread' := packByte_hasRead hread b
    obtain ⟨len, first, acc, e⟩ := packByte_around b s
    rw [e] at hread'
    rw [acceptByte_of_incomplete hb (hread.len ▸ h16), e]
    exact .inl ⟨current ++ [b], bytes, ⟨hphase, hread', by simp; omega, hstore, hfault⟩, rfl⟩

/-- The rest of a text, from the middle of it: the core ends as the batch reading of the rest says. -/
theorem runSteps_text {s : State} {current bytes text : List Byte} (h : InText s current bytes)
    (hpend : s.pending = textTransfers text) (hpc : s.pc = 0) :
    ∃ t, runSteps (text.length + 1) s = .next t ∧ ExecutorKept s t ∧ Loaded t (loadRest s.cfg current bytes text) := by
  induction text generalizing s current bytes with
  | nil =>
    exact ⟨_, runSteps_succ_of_next (step_endInput h.phase hpend) 0, acceptEnd_executorKept hpc [],
      acceptEnd_loaded (h.withPending []) rfl⟩
  | cons b text ih =>
    rw [textTransfers_cons] at hpend
    rw [List.length_cons, runSteps_succ_of_next (step_putByte h.phase hpend)]
    have hkept := acceptByte_executorKept b s (textTransfers text)
    obtain ⟨-, -, hpc', -, hcfg, hpend'⟩ := acceptByte_frame b { s with pending := textTransfers text }
    have hway : OnTheWay (acceptByte b { s with pending := textTransfers text }) s.cfg text
        (loadRest s.cfg current bytes (b :: text)) := by
      by_cases hb : b ∈ s.cfg.delimiters
      · exact acceptByte_delimiter_onTheWay (h.withPending (textTransfers text)) hb text
      · exact acceptByte_token_onTheWay (h.withPending (textTransfers text)) hb text
    rcases hway with ⟨current', bytes', h', e⟩ | ⟨hphase', hloaded⟩
    · obtain ⟨t, hrun, hkept', hloaded⟩ := ih h' hpend' (hpc'.trans hpc)
      rw [hcfg] at hloaded
      exact ⟨t, hrun, hkept.trans hkept', e ▸ hloaded⟩
    · exact ⟨_, runSteps_faulted_text hphase' hpend' _, hkept, hloaded⟩

/-! ## The obligations -/

/-- Settles O19, from the reset state, which is between tokens with an empty store. -/
theorem tokenizerComputesTheBatchReading : Obligations.TokenizerComputesTheBatchReading := by
  intro c text
  obtain ⟨t, hrun, ⟨hregs, hlabels, hpc, hout, hcfg⟩, hloaded⟩ :=
    runSteps_text (s := State.resetWith c (textTransfers text)) (current := []) (bytes := [])
      ⟨rfl, HasRead.nil_iff.2 ⟨rfl, rfl⟩, Nat.zero_le _, ⟨rfl, fun _ => rfl⟩, rfl⟩ rfl rfl
  refine ⟨t, hrun, hpc, hout, hcfg, hregs, hlabels, ?_⟩
  change Loaded t (loadText c text) at hloaded
  revert hloaded
  cases loadText c text with
  | ready bytes => exact id
  | formatError length bytes => exact id
  | outOfMemory bytes => subst hcfg; exact id

/-- Settles O20: the batch reading of a canonical text is its bytes. -/
theorem canonicalTextLoadsTheProgram : Obligations.CanonicalTextLoadsTheProgram := by
  intro c is hspace ha hb hfits
  obtain ⟨t, hrun, hpc, hout, -, hregs, hlabels, hloaded⟩ :=
    tokenizerComputesTheBatchReading c (encodeText (encodeAll is))
  have hready : loadText c (encodeText (encodeAll is)) = .ready (encodeAll is) := by
    rw [loadText, (canonicalTextDecodesToItsBytes c (encodeAll is) hspace ha hb).1,
      loadTokens_map_encodeToken (by simpa using hfits), List.nil_append]
  rw [hready] at hloaded
  obtain ⟨hphase, hpend, hstore, -⟩ := hloaded
  exact ⟨t, hrun, hphase, hpc, hout, hpend, hstore, hregs, hlabels⟩

/-- Settles O18: sixteen bytes are packed, and the delimiter commits them. -/
theorem tokenizerPacksOneToken : Obligations.TokenizerPacksOneToken := by
  intro s t d later hphase hlen hfirst hacc ht hd hroom hpend
  obtain ⟨h16, hbytes⟩ : t.length = 16 ∧ ∀ b ∈ t, b ∉ s.cfg.delimiters := by simpa [tokenWellFormed] using ht
  obtain ⟨len, first, acc, hrun, hread⟩ := runSteps_token hphase (HasRead.nil_iff.2 ⟨hlen, hacc⟩) hbytes
    (by simp [h16]) hpend
  have hcommit := acceptByte_delimiter_of_room (s := s.around len first acc later) hd (hread.len.trans h16) hroom.ne
  have hacc' : acc = decodeToken t := hread.acc
  refine ⟨s.prog.write s.progLen acc, ?_, Memory.write_wf _ _ _, fun k => ?_⟩
  · rw [h16] at hrun
    have hstep := step_putByte (s := s.around len first acc (.putByte d :: later)) hphase rfl
    rw [runSteps_add hrun 1, runSteps_succ_of_next hstep, runSteps_zero]
    refine congrArg _ (hcommit.trans ?_)
    simp only [hlen, hfirst, hacc]
    rfl
  · rw [Memory.read_write, hacc']

/-- Settles O17: the executor does not read the host's list, an ended core takes no input, and a waiting one stays. -/
theorem inputIsTakenOnlyWhileTokenizing : Obligations.InputIsTakenOnlyWhileTokenizing := by
  refine ⟨fun s t x later hpend hreset hidle hphase hstep => ?_, fun s x later _ hinput hphase => ?_,
    fun s hphase hpend => ?_⟩
  · have hquiet : s.hostQuiet := fun l => by
      rw [hpend]
      exact ⟨fun h => hreset (List.cons.inj h).1, fun h => hidle (List.cons.inj h).1⟩
    rw [step_execute (s := { s with pending := [] }) (hostQuiet_nil rfl) hphase] at hstep
    obtain ⟨-, ⟨hlen, hfirst, hacc⟩, -⟩ := execStep_sameAround hstep
    have haround := execStep_around s.tkLen s.tkFirst s.tkAcc s.pending { s with pending := [] }
    rw [hstep, mapNext_next] at haround
    rw [step_execute hquiet hphase]
    refine haround.trans (congrArg _ ?_)
    rw [State.around, ← hlen, ← hfirst, ← hacc]
  · exact runSteps_of_step_self (step_ended_input hphase hinput)
  · exact runSteps_of_step_self (step_wait hphase hpend)

/-- Settles O21, by the frames of the two transfers; a faulted core takes none. -/
theorem tokenizerStepsLeaveTheExecutorAlone : Obligations.TokenizerStepsLeaveTheExecutorAlone := by
  intro s t x later hinv hpend hreset hidle hstep
  refine ⟨fun hphase => ?_, fun hphase hlater => ?_⟩
  · obtain ⟨hpc, -⟩ := hinv.not_started hphase
    cases x with
    | reset => exact absurd rfl hreset
    | idle => exact absurd rfl hidle
    | putByte b =>
      cases (step_putByte hphase hpend).symm.trans hstep
      obtain ⟨hregs, hlabels, hpc', hout, hcfg, htaken⟩ := acceptByte_frame b { s with pending := later }
      exact ⟨htaken, hregs, hlabels, hout, hpc', hcfg⟩
    | endInput =>
      cases (step_endInput hphase hpend).symm.trans hstep
      obtain ⟨hregs, hlabels, hpc', hout, hcfg, htaken⟩ := acceptEnd_frame { s with pending := later }
      exact ⟨htaken, hregs, hlabels, hout, (hpc' hpc).trans hpc.symm, hcfg⟩
  · have hquiet : s.hostQuiet := fun l => by
      rw [hpend]
      exact ⟨fun h => hreset (List.cons.inj h).1, fun h => hidle (List.cons.inj h).1⟩
    have hno : ∀ y ∈ s.pending, y ≠ .reset := by
      rw [hpend]
      exact List.forall_mem_cons.2 ⟨hreset, hlater⟩
    rw [step_ended hquiet (.inr hphase), endedStep_of_no_reset hno] at hstep
    cases hstep
    rfl

end Sys2Proof.Machine

/-! SUPPORT and proofs for steps and runs of the core: Reset, the decoded instruction, pc, the phases, ended runs, the causes,
the output; and for the instructions' effects on registers and labels. -/

namespace Sys2Proof.Machine

/-! ## The instruction at pc (R120, R144, R145) -/

/-- The bytes of a whole encoding at an index are the opcode there and the operands after it. -/
theorem Memory.read_of_readBytes_encode {m : Memory} {k n : Nat} {i : Instr} (h : m.readBytes k n = some (encode i)) :
    n = 1 + i.arity ∧ m.read k = some i.opcode ∧ m.readBytes (k + 1) i.arity = some i.operands := by
  obtain rfl : n = 1 + i.arity := by
    rw [← Memory.readBytes_length h, encode, List.length_cons, Instr.operands_length, Nat.add_comm]
  rw [Nat.add_comm 1, Memory.readBytes_succ] at h
  obtain ⟨b, hb, hmap⟩ := Option.bind_eq_some_iff.1 h
  obtain ⟨rest, hrest, e⟩ := Option.map_eq_some_iff.1 hmap
  obtain ⟨rfl, rfl⟩ := List.cons.inj e
  exact ⟨rfl, hb, hrest⟩

/-- Bytes at pc that decode to an instruction, all of them below N: the executor's step is that instruction. -/
theorem execStep_of_decode {s : State} {i : Instr} {bytes : List Byte} {n : Nat}
    (hbytes : s.prog.readBytes s.pc n = some bytes) (hdecode : decode bytes = .ok (i, []))
    (hn : s.pc + n ≤ s.progLen) : execStep s = exec i s := by
  rw [eq_encode_append_of_decode hdecode, List.append_nil] at hbytes
  obtain ⟨rfl, hop, hoperands⟩ := Memory.read_of_readBytes_encode hbytes
  exact execStep_of_bytes hop hoperands (by omega)

/-! ## pc after an instruction (R43, R145, R150) -/

/-- The instruction is a jump. -/
def IsJump (i : Instr) : Prop :=
  (∃ r, i = .jumpReg r) ∨ ∃ j, i = .jumpImm j

/-- The instruction ends the run and keeps pc; or it goes on, to its successor or, for a jump, to a label's value. -/
theorem exec_pc_cases {i : Instr} {s t : State} (hs : s.phase = .execute) (h : exec i s = .next t) :
    (t.phase ≠ .execute ∧ t.pc = s.pc) ∨
    (t.phase = .execute ∧ ¬ IsJump i ∧ t.pc = s.pc + 1 + i.arity) ∨
    (t.phase = .execute ∧ IsJump i ∧ ∃ j, t.pc = s.label j) := by
  obtain ⟨u, hu, hcases⟩ := exec_cases i s
  cases hu.symm.trans h
  rcases hcases with ⟨-, rfl⟩ | ⟨rd, v, hrd, rfl, -⟩ | ⟨text, rfl, hi⟩ | ⟨j, v, rfl, hi⟩ | ⟨j, rfl, -, hi⟩ |
    ⟨c, v, rfl, -⟩
  · exact .inl ⟨nofun, rfl⟩
  · refine .inr (.inl ⟨hs, ?_, by rw [arity_of_destination hrd]; rfl⟩)
    rintro (⟨r, rfl⟩ | ⟨j, rfl⟩) <;> cases hrd
  · rcases hi with ⟨r, rfl, -⟩ | ⟨c, rfl, -⟩ <;> exact .inr (.inl ⟨hs, by simp [IsJump], rfl⟩)
  · rcases hi with ⟨rfl, -⟩ | ⟨r, rfl, -⟩ | ⟨rfl, -⟩ <;> exact .inr (.inl ⟨hs, by simp [IsJump], rfl⟩)
  · exact .inr (.inr ⟨hs, hi.elim (fun hj => .inr ⟨j, hj⟩) fun ⟨r, hr, _⟩ => .inl ⟨r, hr⟩, j, rfl⟩)
  · exact .inl ⟨nofun, rfl⟩

/-! ## Phases -/

theorem acceptByte_phase (b : Byte) (s : State) :
    (acceptByte b s).phase = s.phase ∨ (acceptByte b s).phase = .faulted := by
  rcases acceptByte_cases b s with ⟨-, ⟨-, e⟩ | ⟨-, -, e⟩ | ⟨-, -, e⟩ | ⟨-, -, e⟩⟩ | ⟨-, ⟨-, e⟩ | ⟨-, e⟩⟩ <;> rw [e]
  · exact .inl rfl
  · exact .inl rfl
  · exact .inr rfl
  · exact .inr rfl
  · exact .inr rfl
  · exact .inl (packByte_phase b s)

theorem acceptEnd_phase (s : State) : (acceptEnd s).phase = .execute ∨ (acceptEnd s).phase = .faulted := by
  rcases acceptEnd_cases s with ⟨-, e⟩ | ⟨-, -, e⟩ | ⟨-, -, e⟩ | ⟨-, -, e⟩ <;> rw [e]
  · exact .inl rfl
  · exact .inl rfl
  · exact .inr rfl
  · exact .inr rfl

/-- The executor's step goes on, or faults, or is HALT's. -/
theorem execStep_phase {s t : State} (h : execStep s = .next t) :
    t.phase = s.phase ∨ t.phase = .faulted ∨ t.phase = .halted ∧ s.prog.read s.pc = some 0 ∧ s.pc < s.progLen := by
  rcases execStep_raises_or_execs h with ⟨c, v, -, rfl⟩ | ⟨i, hop, -, -, hpc, he⟩
  · exact .inr (.inl rfl)
  · obtain ⟨-, -, hphase⟩ := noInstructionWritesTheProgramStore i s t he
    rcases hphase with hp | hp | ⟨hp, rfl⟩
    · exact .inl hp
    · exact .inr (.inl hp)
    · exact .inr (.inr ⟨hp, hop, hpc⟩)

/-! ## Fault causes (R301, R302) -/

/-- The causes an instruction can raise, each with the parameter that lets it. -/
theorem OwnFault.cause_cases {i : Instr} {s : State} {c : FaultCause} {v : Int} (h : OwnFault i s c v) :
    c = .indexBoundsError ∨ (c = .addOverflow ∧ s.cfg.addOverflow = .fault) ∨
      (c = .unsetLabel ∧ s.cfg.unsetLabelPolicy = .fault) ∨
      (c = .unsupportedOpcode ∧ unsupported s.cfg i.opcode = true) := by
  rcases h with ⟨_, _, -, rfl, -, hp⟩ | ⟨_, -, rfl, -⟩ | ⟨_, rfl, rfl, -, hmode⟩ | ⟨_, -, rfl, -⟩ |
    ⟨_, _, -, -, rfl, -, hp, -⟩ | ⟨_, -, rfl, -, hp, -⟩ | ⟨_, _, _, rfl, rfl, -⟩
  · exact .inr (.inl ⟨rfl, hp⟩)
  · exact .inl rfl
  · exact .inr (.inr (.inr ⟨rfl, (unsupported_iff _ _).2 (.inr ⟨rfl, hmode⟩)⟩))
  · exact .inl rfl
  · exact .inr (.inr (.inl ⟨rfl, hp⟩))
  · exact .inr (.inr (.inl ⟨rfl, hp⟩))
  · exact .inr (.inr (.inr ⟨rfl, (unsupported_iff _ _).2 (.inl rfl)⟩))

/-- The two causes that the default parameters exclude. -/
def Excluded (c : FaultCause) : Prop :=
  c = .unsetLabel ∨ c = .addOverflow

theorem acceptByte_excluded {b : Byte} {s : State} (h : Excluded (acceptByte b s).faultCause) : Excluded s.faultCause := by
  rcases acceptByte_cases b s with ⟨-, ⟨-, e⟩ | ⟨-, -, e⟩ | ⟨-, -, e⟩ | ⟨-, -, e⟩⟩ | ⟨-, ⟨-, e⟩ | ⟨-, e⟩⟩ <;> rw [e] at h
  · exact h
  · exact h
  · exact Or.elim h nofun nofun
  · exact Or.elim h nofun nofun
  · exact Or.elim h nofun nofun
  · obtain ⟨len, first, acc, e'⟩ := packByte_around b s
    rw [e'] at h
    exact h

theorem acceptEnd_excluded {s : State} (h : Excluded (acceptEnd s).faultCause) : Excluded s.faultCause := by
  rcases acceptEnd_cases s with ⟨-, e⟩ | ⟨-, -, e⟩ | ⟨-, -, e⟩ | ⟨-, -, e⟩ <;> rw [e] at h
  · exact h
  · exact h
  · exact Or.elim h nofun nofun
  · exact Or.elim h nofun nofun

theorem exec_excluded {i : Instr} {s t : State} (hadd : s.cfg.addOverflow = .wrap)
    (hpolicy : s.cfg.unsetLabelPolicy = .zero) (he : exec i s = .next t) (h : Excluded t.faultCause) :
    Excluded s.faultCause := by
  obtain ⟨u, hu, hcases⟩ := exec_cases i s
  cases hu.symm.trans he
  rcases hcases with ⟨-, rfl⟩ | ⟨rd, v, -, rfl, -⟩ | ⟨text, rfl, -⟩ | ⟨j, v, rfl, -⟩ | ⟨j, rfl, -⟩ | ⟨c, v, rfl, hown⟩
  · exact h
  · exact h
  · exact h
  · exact h
  · exact h
  · rcases hown.cause_cases with rfl | ⟨-, hfault⟩ | ⟨-, hfault⟩ | ⟨rfl, -⟩
    · exact Or.elim h nofun nofun
    · cases hadd.symm.trans hfault
    · cases hpolicy.symm.trans hfault
    · exact Or.elim h nofun nofun

theorem execStep_excluded {s t : State} (hadd : s.cfg.addOverflow = .wrap)
    (hpolicy : s.cfg.unsetLabelPolicy = .zero) (he : execStep s = .next t) (h : Excluded t.faultCause) :
    Excluded s.faultCause := by
  rcases execStep_raises_or_execs he with ⟨c, v, hc, rfl⟩ | ⟨i, -, -, -, -, hi⟩
  · rcases hc with rfl | rfl | rfl <;> exact Or.elim h nofun nofun
  · exact exec_excluded hadd hpolicy hi h

/-- Under WRAP and ZERO no step leads to an excluded cause from another one. -/
theorem step_excluded {s t : State} (hadd : s.cfg.addOverflow = .wrap) (hpolicy : s.cfg.unsetLabelPolicy = .zero)
    (hstep : step s = .next t) (h : Excluded t.faultCause) : Excluded s.faultCause := by
  rcases step_cases s with ⟨later, -, e⟩ | ⟨b, later, -, -, e⟩ | ⟨later, -, -, e⟩ | ⟨p, -, e⟩
  · cases e.symm.trans hstep
    exact Or.elim h nofun nofun
  · cases e.symm.trans hstep
    exact acceptByte_excluded (s := { s with pending := later }) h
  · cases e.symm.trans hstep
    exact acceptEnd_excluded (s := { s with pending := later }) h
  · rcases coreStep_cases { s with pending := p } with ⟨-, e'⟩ | ⟨later, e'⟩ | ⟨-, e'⟩
    · cases e'.symm.trans (e.symm.trans hstep)
      exact h
    · cases e'.symm.trans (e.symm.trans hstep)
      exact Or.elim h nofun nofun
    · exact execStep_excluded (s := { s with pending := p }) hadd hpolicy (e'.symm.trans (e.symm.trans hstep)) h

/-! ## The output (R50) -/

theorem exec_out_grows {i : Instr} {s t : State} (h : exec i s = .next t) : ∃ more, t.out = s.out ++ more := by
  rcases onlyPrintsWriteOutput.2 i s t h with ⟨e, -⟩ | ⟨-, text, -, e⟩
  · exact ⟨[], by rw [e, List.append_nil]⟩
  · exact ⟨text ++ [s.cfg.newline], by rw [e, List.append_assoc]⟩

theorem execStep_out_grows {s t : State} (h : execStep s = .next t) : ∃ more, t.out = s.out ++ more := by
  rcases execStep_raises_or_execs h with ⟨c, v, -, rfl⟩ | ⟨i, -, -, -, -, hi⟩
  · exact ⟨[], by simp⟩
  · exact exec_out_grows hi

theorem step_out_grows {s t : State} (hreset : ∀ x ∈ s.pending, x ≠ .reset) (h : step s = .next t) :
    ∃ more, t.out = s.out ++ more := by
  rcases step_cases s with ⟨later, hpend, -⟩ | ⟨b, later, -, -, e⟩ | ⟨later, -, -, e⟩ | ⟨p, hp, e⟩
  · exact absurd rfl (hreset .reset (by simp [hpend]))
  · cases e.symm.trans h
    obtain ⟨-, -, -, hout, -⟩ := acceptByte_frame b { s with pending := later }
    exact ⟨[], by rw [hout, List.append_nil]⟩
  · cases e.symm.trans h
    obtain ⟨-, -, -, hout, -⟩ := acceptEnd_frame { s with pending := later }
    exact ⟨[], by rw [hout, List.append_nil]⟩
  · by_cases hphase : s.phase = .execute
    · rw [coreStep_execute (s := { s with pending := p }) hphase] at e
      exact execStep_out_grows (s := { s with pending := p }) (e.symm.trans h)
    · rw [coreStep_waits (s := { s with pending := p }) hphase fun x hx => hreset x (CoreSteps.mem hp hx)] at e
      cases e.symm.trans h
      exact ⟨[], by rw [List.append_nil]⟩

/-! ## Additions under WRAP (R177) -/

theorem addValue_wrap {s : State} (hw : 1 ≤ s.cfg.regW) (hc : s.cfg.addOverflow = .wrap) (rd : Byte) (y : Int) :
    addValue rd y s = storeValue rd (wrapCell s.cfg.regW (s.reg rd + y)) s := by
  rw [addValue, addCells_wrap hw hc]

/-- Only the second of two writes to one register is left. -/
theorem storeValue_storeValue (rd : Byte) (v w : Int) (s : State) :
    storeValue rd w (storeValue rd v s) = (s.setReg rd w).advance 6 := by
  simp [storeValue, State.setReg, State.advance]

/-- Wrapping after each of two additions: their order does not matter. -/
theorem wrapCell_add_comm {w : Nat} (hw : 1 ≤ w) (x y z : Int) :
    wrapCell w (wrapCell w (x + y) + z) = wrapCell w (wrapCell w (x + z) + y) := by
  refine wrapCell_congr hw ?_
  have e : wrapCell w (x + y) + z - (wrapCell w (x + z) + y) =
      (x + z - wrapCell w (x + z)) - (x + y - wrapCell w (x + y)) := by ring
  rw [e]
  exact dvd_sub (wrapCell_dvd w _) (wrapCell_dvd w _)

/-- Two additions of other registers under WRAP: the sum, wrapped twice. -/
theorem exec_addReg_addReg {s t u : State} {a b rd : Byte} (hw : 1 ≤ s.cfg.regW) (hc : s.cfg.addOverflow = .wrap)
    (hb : b ≠ rd) (ht : exec (.addReg a rd) s = .next t) (hu : exec (.addReg b rd) t = .next u) :
    u = (s.setReg rd (wrapCell s.cfg.regW (wrapCell s.cfg.regW (s.reg rd + s.reg a) + s.reg b))).advance 6 := by
  rw [exec_addReg, addValue_wrap hw hc] at ht
  cases ht
  rw [exec_addReg, addValue_wrap (s := storeValue _ _ s) hw hc] at hu
  cases hu
  obtain ⟨hrd, hothers, -⟩ := storeValue_spec rd (wrapCell s.cfg.regW (s.reg rd + s.reg a)) s
  rw [hrd, hothers b hb, storeValue_storeValue]
  rfl

/-! ## The length of a decimal text (R201) -/

theorem digits_length (m : Nat) : (digits m).length = (Nat.digits 10 m).length := by
  rw [digits_eq_map, List.length_map, List.length_reverse]

theorem decimal_length_of_one_digit {v : Int} (h0 : 0 ≤ v) (h9 : v ≤ 9) : (decimal v).length = 1 := by
  by_cases hv : v = 0
  · subst hv; rfl
  · rw [decimal_of_ne_zero hv, if_neg (by omega), List.nil_append, digits_length,
      Nat.digits_of_lt 10 _ (by omega) (by omega), List.length_singleton]

/-- A sign and ten digits are enough for 32 bits. -/
theorem decimal_length_le_of_fits {v : Int} (h : fitsCell 32 v) : (decimal v).length ≤ 11 := by
  obtain ⟨hlow, hhigh⟩ := h
  by_cases hv : v = 0
  · subst hv; decide
  · have hsign : (if v < 0 then [0x2D] else [] : List Byte).length ≤ 1 := by split <;> simp
    have hdigits : (Nat.digits 10 v.natAbs).length ≤ 10 :=
      (Nat.digits_length_le_iff (by decide) _).2 (by norm_num at hlow hhigh ⊢; omega)
    rw [decimal_of_ne_zero hv, List.length_append, digits_length]
    omega

/-! ## The obligations -/

/-- Settles O2: the step is the reset state, with the run's parameters and the host's later transfers. -/
theorem resetTransferResetsInAnyPhase : Obligations.ResetTransferResetsInAnyPhase := fun s later hpend =>
  ⟨State.resetWith s.cfg later, step_reset hpend, rfl, rfl, State.resetWith_reg s.cfg later,
    fun j => ⟨State.resetWith_label s.cfg later j, State.resetWith_isLabelSet s.cfg later j⟩,
    rfl, rfl, rfl, rfl, rfl, rfl, rfl, rfl, rfl, rfl⟩

/-- Settles O23: what decodes at pc is an instruction's encoding, with or without an idle entry before the step. -/
theorem stepRunsTheDecodedInstruction : Obligations.StepRunsTheDecodedInstruction := by
  refine fun s i bytes n hphase hbytes hdecode hn => ⟨fun hquiet => ?_, fun later hidle => ?_⟩
  · rw [step_execute hquiet hphase, execStep_of_decode hbytes hdecode hn]
  · rw [step_idle hidle, coreStep_execute (s := { s with pending := later }) hphase]
    exact execStep_of_decode hbytes hdecode hn

/-- Settles O27, by the operand bound, the executor's last check. -/
theorem truncatedInstructionFaults : Obligations.TruncatedInstructionFaults := by
  intro s op a hphase hquiet hpc hop ha h44 h40 hn
  rw [step_execute hquiet hphase, execStep_of_read hpc hop]
  exact ⟨_, execOpcode_of_truncated ha (fun hu => ((unsupported_iff s.cfg op).1 hu).elim h44 h40) hn,
    s.raise_faultedFrom _ _ _⟩

/-- Settles O28, by the three ways pc goes. -/
theorem pcAdvancesPastTheInstruction : Obligations.PcAdvancesPastTheInstruction := by
  intro i s t hphase h
  rcases exec_pc_cases hphase h with ⟨hne, hpc⟩ | ⟨ht, hi, hpc⟩ | ⟨ht, hi, hlabel⟩
  · exact ⟨fun ht => absurd ht hne, fun ht => absurd ht hne, fun _ => hpc⟩
  · exact ⟨fun _ _ _ => hpc, fun _ hjump => absurd hjump hi, fun hne => absurd ht hne⟩
  · exact ⟨fun _ hreg himm => absurd hi (not_or.2 ⟨not_exists.2 hreg, not_exists.2 himm⟩), fun _ _ => hlabel,
      fun hne => absurd ht hne⟩

/-- Settles O29: in TOKENIZE the core takes input or waits; past it every step is the core's own. -/
theorem phasesFollowTheRun : Obligations.PhasesFollowTheRun := by
  intro s t hreset hstep
  have hended (h : s.phase = .halted ∨ s.phase = .faulted) : t.phase = s.phase := by
    obtain ⟨p, e, -⟩ := step_ended_waits h hreset
    cases e.symm.trans hstep
    rfl
  refine ⟨fun hphase => ?_, fun hphase => ?_, fun hphase => (hended (.inl hphase)).trans hphase,
    fun hphase => (hended (.inr hphase)).trans hphase⟩
  · rcases step_cases s with ⟨later, hpend, -⟩ | ⟨b, later, -, -, e⟩ | ⟨later, -, -, e⟩ | ⟨p, -, e⟩
    · exact absurd rfl (hreset .reset (by simp [hpend]))
    · cases e.symm.trans hstep
      exact (acceptByte_phase b { s with pending := later }).imp (·.trans hphase) .inr
    · cases e.symm.trans hstep
      exact .inr (acceptEnd_phase { s with pending := later })
    · rw [coreStep_tokenize (s := { s with pending := p }) hphase] at e
      cases e.symm.trans hstep
      exact .inl hphase
  · obtain ⟨p, hp⟩ := coreSteps_of_started (by simp [hphase]) hreset
    rw [hp.step_eq, coreStep_execute (s := { s with pending := p }) hphase] at hstep
    exact (execStep_phase hstep).imp_left (·.trans hphase)

/-- Settles O30: each step takes at most an idle entry. -/
theorem endedRunsStayAsTheyAre : Obligations.EndedRunsStayAsTheyAre := by
  intro s n hphase hreset
  induction n generalizing s with
  | zero => exact ⟨s.pending, rfl⟩
  | succ n ih =>
    obtain ⟨p, e, hrest⟩ := step_ended_waits hphase hreset
    rw [runSteps_succ_of_next e]
    exact ih { s with pending := p } hphase hrest

/-- Settles O33: no step leads to either cause under these parameters, which every step keeps. -/
theorem defaultParametersNeverRaiseSevenOrEight : Obligations.DefaultParametersNeverRaiseSevenOrEight := by
  intro n s t hadd hpolicy hunset hoverflow hrun
  obtain ⟨-, hother⟩ : t.cfg = s.cfg ∧ ¬ Excluded t.faultCause := by
    refine runSteps_keeps (P := fun u => u.cfg = s.cfg ∧ ¬ Excluded u.faultCause) (fun u v ⟨hcfg, hu⟩ hstep => ?_)
      ⟨rfl, not_or.2 ⟨hunset, hoverflow⟩⟩ hrun
    exact ⟨(step_cfg hstep).trans hcfg, mt (step_excluded (hcfg ▸ hadd) (hcfg ▸ hpolicy) hstep) hu⟩
  exact not_or.1 hother

/-- Settles O40: both orders write the same wrapped sum. -/
theorem wrappingAdditionsCommute : Obligations.WrappingAdditionsCommute := by
  intro s t u t' u' a b rd hw hc ha hb ht hu ht' hu'
  have hw1 : 1 ≤ s.cfg.regW := by omega
  rw [exec_addReg_addReg hw1 hc hb ht hu, exec_addReg_addReg hw1 hc ha ht' hu', wrapCell_add_comm hw1]

/-- Settles O43, by the number of decimal digits. -/
theorem printRegAppendsAtMostTwelveBytes : Obligations.PrintRegAppendsAtMostTwelveBytes := by
  intro s t rs h
  have hlen : t.out.length = s.out.length + (decimal (s.reg rs)).length + 1 := by
    rw [exec_printReg_out h, List.length_append, List.length_append, List.length_singleton]
  refine ⟨hlen, fun h0 h9 => ?_, fun hw hfits => ?_⟩
  · rw [hlen, decimal_length_of_one_digit h0 h9]
  · have := decimal_length_le_of_fits (hw ▸ hfits)
    omega

/-- Settles O51, by what an instruction does: all but the write of a destination leave every register. -/
theorem onlyStoresAndAddsWriteRegisters : Obligations.OnlyStoresAndAddsWriteRegisters := by
  intro i s t r h hchanged
  obtain ⟨u, hu, hcases⟩ := exec_cases i s
  cases hu.symm.trans h
  rcases hcases with ⟨-, rfl⟩ | ⟨rd, v, -, rfl, hi⟩ | ⟨text, rfl, -⟩ | ⟨j, v, rfl, -⟩ | ⟨j, rfl, -⟩ | ⟨c, v, rfl, -⟩
  · exact absurd rfl hchanged
  · obtain ⟨-, hothers, -⟩ := storeValue_spec rd v s
    obtain rfl : r = rd := by_contra fun hne => hchanged (hothers r hne)
    rcases hi with ⟨b, rfl, -⟩ | ⟨rs, rfl, -⟩ | ⟨b, rfl, -⟩ | ⟨rs, rfl, -⟩
    · exact .inl ⟨b, rfl⟩
    · exact .inr (.inl ⟨rs, rfl⟩)
    · exact .inr (.inr (.inl ⟨b, rfl⟩))
    · exact .inr (.inr (.inr ⟨rs, rfl⟩))
  · exact absurd rfl hchanged
  · exact absurd rfl hchanged
  · exact absurd rfl hchanged
  · exact absurd rfl hchanged

/-- Settles O52, by what an instruction does: all but the write of one label leave every label and mark. -/
theorem onlyLabelsetsWriteLabels : Obligations.OnlyLabelsetsWriteLabels := by
  intro i s t j h hchanged
  have hsame {P : Prop} (hs : SameLabels s t) : P :=
    (hchanged.elim (fun hne => hne (hs j).1) fun hne => hne (hs j).2).elim
  obtain ⟨u, hu, hcases⟩ := exec_cases i s
  cases hu.symm.trans h
  rcases hcases with ⟨-, rfl⟩ | ⟨rd, v, -, rfl, -⟩ | ⟨text, rfl, -⟩ | ⟨k, v, rfl, hi⟩ | ⟨k, rfl, -⟩ | ⟨c, v, rfl, -⟩
  · exact hsame fun _ => ⟨rfl, rfl⟩
  · exact hsame fun _ => ⟨rfl, rfl⟩
  · exact hsame fun _ => ⟨rfl, rfl⟩
  · obtain ⟨hlabel, hset, hothers, -⟩ := labelSetTo_spec k v s
    obtain rfl : j = k := by_contra fun hne =>
      hchanged.elim (fun h => h (hothers j hne).1) fun h => h (hothers j hne).2
    rw [hlabel]
    rcases hi with ⟨rfl, rfl⟩ | ⟨r, rfl, -, -, rfl⟩ | ⟨rfl, hmode, -, hle⟩
    · exact ⟨.inl ⟨j, rfl⟩, hset, hothers, .inl rfl⟩
    · exact ⟨.inr ⟨r, rfl⟩, hset, hothers, .inl rfl⟩
    · exact ⟨.inr ⟨j, rfl⟩, hset, hothers, .inr ⟨hmode, hle⟩⟩
  · exact hsame fun _ => ⟨rfl, rfl⟩
  · exact hsame fun _ => ⟨rfl, rfl⟩

/-- Settles O54: every step appends to the output, if anything. -/
theorem outputOnlyGrows : Obligations.OutputOnlyGrows := by
  intro n s t hreset hrun
  obtain ⟨-, more, e⟩ : (∀ x ∈ t.pending, x ≠ .reset) ∧ s.out <+: t.out := by
    refine runSteps_keeps (P := fun u => (∀ x ∈ u.pending, x ≠ .reset) ∧ s.out <+: u.out)
      (fun u v ⟨hno, hgrown⟩ hstep => ⟨step_keeps_no_reset hno hstep, hgrown.trans ?_⟩)
      ⟨hreset, [], List.append_nil _⟩ hrun
    obtain ⟨more, e⟩ := step_out_grows hno hstep
    exact ⟨more, e.symm⟩
  exact ⟨more, e.symm⟩

end Sys2Proof.Machine

/-! SUPPORT and proofs for what cannot be observed: the label flags under UNSET_LABEL_POLICY = ZERO, and the tokenizer's
state once execution has begun. -/

namespace Sys2Proof.Machine

/-- A relation that every step carries over, every run carries over. -/
theorem runSteps_simulates {R : State → State → Prop}
    (hstep : ∀ s s' t, R s s' → step s = .next t → ∃ t', step s' = .next t' ∧ R t t') {n : Nat} {s s' t : State}
    (hs : R s s') (h : runSteps n s = .next t) : ∃ t', runSteps n s' = .next t' ∧ R t t' := by
  induction n generalizing s s' with
  | zero => cases h; exact ⟨s', rfl, hs⟩
  | succ n ih =>
    obtain ⟨u, hu, hn⟩ := runSteps_succ_next h
    obtain ⟨u', hu', hr⟩ := hstep s s' u hs hu
    rw [runSteps_succ_of_next hu']
    exact ih hr hn

/-! ## The label flags (R39) -/

theorem tokenDelimiter_withFlags (flags : Vector Bool 256) (s : State) :
    tokenDelimiter (s.withFlags flags) = (tokenDelimiter s).withFlags flags := by
  have hcommit : (commit? (s.withFlags flags)).getD (raiseOutOfMemory (s.withFlags flags)) =
      ((commit? s).getD (raiseOutOfMemory s)).withFlags flags := by
    by_cases hfull : s.progLen = s.cfg.progMax
    · rw [commit?_of_full hfull, commit?_of_full (s := s.withFlags flags) hfull]; rfl
    · rw [commit?_of_room hfull, commit?_of_room (s := s.withFlags flags) hfull]; rfl
  rw [tokenDelimiter, tokenDelimiter, hcommit, apply_ite (State.withFlags flags), apply_ite (State.withFlags flags)]
  rfl

theorem tokenByte_withFlags (flags : Vector Bool 256) (b : Byte) (s : State) :
    tokenByte b (s.withFlags flags) = (tokenByte b s).withFlags flags := by
  have hpack : packByte b (s.withFlags flags) = (packByte b s).withFlags flags := by
    rw [packByte, packByte, apply_ite (State.withFlags flags), apply_ite (State.withFlags flags)]
    rfl
  rw [tokenByte, tokenByte, hpack, apply_ite (State.withFlags flags)]
  rfl

/-- The tokenizer does not read the label flags. -/
theorem acceptByte_withFlags (flags : Vector Bool 256) (b : Byte) (s : State) :
    acceptByte b (s.withFlags flags) = (acceptByte b s).withFlags flags := by
  rw [acceptByte, acceptByte, tokenDelimiter_withFlags, tokenByte_withFlags, apply_ite (State.withFlags flags)]
  rfl

theorem acceptEnd_withFlags (flags : Vector Bool 256) (s : State) :
    acceptEnd (s.withFlags flags) = (acceptEnd s).withFlags flags := by
  rcases acceptEnd_cases s with ⟨h0, e⟩ | ⟨h16, hroom, e⟩ | ⟨h16, hfull, e⟩ | ⟨h0, h16, e⟩ <;> rw [e]
  · exact acceptEnd_between (s := s.withFlags flags) h0
  · exact acceptEnd_of_room (s := s.withFlags flags) h16 hroom
  · exact acceptEnd_of_full (s := s.withFlags flags) h16 hfull
  · exact acceptEnd_of_incomplete (s := s.withFlags flags) h0 h16

/-- `t` is `s` but for the label flags. -/
def SameButFlags (s t : State) : Prop :=
  ∃ flags, t = s.withFlags flags

theorem endedStep_of_none {s : State} (h : afterReset? s.pending = none) : endedStep s = s := by
  rw [endedStep, h]

theorem endedStep_of_some {s : State} {later : List HostTransfer} (h : afterReset? s.pending = some later) :
    endedStep s = State.resetWith s.cfg later := by
  rw [endedStep, h]
  rfl

/-- An ended run is reset or stays whatever the flags. -/
theorem endedStep_sameButFlags (flags : Vector Bool 256) (s : State) :
    SameButFlags (endedStep s) (endedStep (s.withFlags flags)) := by
  cases h : afterReset? s.pending with
  | none => exact ⟨flags, by rw [endedStep_of_none h, endedStep_of_none (s := s.withFlags flags) h]⟩
  | some later =>
    refine ⟨Vector.replicate 256 false, ?_⟩
    rw [endedStep_of_some h, endedStep_of_some (s := s.withFlags flags) h]
    rfl

theorem coreStep_sameButFlags {s t : State} (flags : Vector Bool 256) (hpolicy : s.cfg.unsetLabelPolicy = .zero)
    (h : coreStep s = .next t) : ∃ t', coreStep (s.withFlags flags) = .next t' ∧ SameButFlags t t' := by
  cases hphase : s.phase with
  | tokenize =>
    cases (coreStep_tokenize hphase).symm.trans h
    exact ⟨_, coreStep_tokenize (s := s.withFlags flags) hphase, flags, rfl⟩
  | execute =>
    rw [coreStep_execute hphase] at h
    rw [coreStep_execute (s := s.withFlags flags) hphase]
    obtain ⟨flags', e⟩ := execStep_withFlags flags s hpolicy
    rw [e, h]
    exact ⟨_, rfl, flags', rfl⟩
  | halted =>
    cases (coreStep_ended (.inl hphase)).symm.trans h
    exact ⟨_, coreStep_ended (s := s.withFlags flags) (.inl hphase), endedStep_sameButFlags flags s⟩
  | faulted =>
    cases (coreStep_ended (.inr hphase)).symm.trans h
    exact ⟨_, coreStep_ended (s := s.withFlags flags) (.inr hphase), endedStep_sameButFlags flags s⟩

/-- Under ZERO a step of two states that differ in the label flags alone leads to two such states. -/
theorem step_sameButFlags {s s' t : State} (hpolicy : s.cfg.unsetLabelPolicy = .zero) (hs : SameButFlags s s')
    (h : step s = .next t) : ∃ t', step s' = .next t' ∧ SameButFlags t t' := by
  obtain ⟨flags, rfl⟩ := hs
  rcases step_cases s with ⟨later, hpend, e⟩ | ⟨b, later, hphase, hpend, e⟩ | ⟨later, hphase, hpend, e⟩ | ⟨p, hp, e⟩
  · cases e.symm.trans h
    exact ⟨_, step_reset (s := s.withFlags flags) hpend, Vector.replicate 256 false, rfl⟩
  · cases e.symm.trans h
    exact ⟨_, step_putByte (s := s.withFlags flags) hphase hpend, flags,
      acceptByte_withFlags flags b { s with pending := later }⟩
  · cases e.symm.trans h
    exact ⟨_, step_endInput (s := s.withFlags flags) hphase hpend, flags,
      acceptEnd_withFlags flags { s with pending := later }⟩
  · rw [CoreSteps.step_eq (s := s.withFlags flags) (p := p) hp]
    exact coreStep_sameButFlags (s := { s with pending := p }) flags hpolicy (e.symm.trans h)

/-! ## The tokenizer's state (R45, R60) -/

/-- The same state but for the tokenizer's working state. -/
def State.withToken (len : Nat) (first acc : Byte) (s : State) : State :=
  { s with tkLen := len, tkFirst := first, tkAcc := acc }

theorem coreStep_withToken {s t : State} (len : Nat) (first acc : Byte) (hreset : ∀ x ∈ s.pending, x ≠ .reset)
    (h : coreStep s = .next t) : coreStep (s.withToken len first acc) = .next (t.withToken len first acc) := by
  by_cases hphase : s.phase = .execute
  · rw [coreStep_execute hphase] at h
    rw [coreStep_execute (s := s.withToken len first acc) hphase]
    obtain ⟨-, -, -, hpend⟩ := execStep_sameAround h
    have haround := execStep_around len first acc s.pending s
    rw [h, mapNext_next] at haround
    exact haround.trans (congrArg (fun p => Host.Outcome.next (t.around len first acc p)) hpend.symm)
  · cases (coreStep_waits hphase hreset).symm.trans h
    exact coreStep_waits (s := s.withToken len first acc) hphase hreset

/-- Once execution has begun and with no Reset to come, no step reads or writes the tokenizer's state. -/
theorem step_withToken {s t : State} (len : Nat) (first acc : Byte) (hphase : s.phase ≠ .tokenize)
    (hreset : ∀ x ∈ s.pending, x ≠ .reset) (h : step s = .next t) :
    step (s.withToken len first acc) = .next (t.withToken len first acc) := by
  obtain ⟨p, hp⟩ := coreSteps_of_started hphase hreset
  rw [hp.step_eq] at h
  rw [CoreSteps.step_eq (s := s.withToken len first acc) (p := p) hp]
  exact coreStep_withToken (s := { s with pending := p }) len first acc (fun x hx => hreset x (hp.mem hx)) h

/-- The tokenizer does not come back without a Reset. -/
theorem step_keeps_started {s t : State} (hphase : s.phase ≠ .tokenize) (hreset : ∀ x ∈ s.pending, x ≠ .reset)
    (h : step s = .next t) : t.phase ≠ .tokenize := by
  obtain ⟨-, hexecute, hhalted, hfaulted⟩ := phasesFollowTheRun s t hreset h
  cases hp : s.phase with
  | tokenize => exact absurd hp hphase
  | execute => rcases hexecute hp with e | e | ⟨e, -⟩ <;> simp [e]
  | halted => simp [hhalted hp]
  | faulted => simp [hfaulted hp]

/-! ## The obligations -/

/-- Settles O55: the relation "but for the label flags" is carried over by every step. -/
theorem labelFlagsAreUnobservableUnderZero : Obligations.LabelFlagsAreUnobservableUnderZero := by
  intro n s t flags hpolicy hrun
  obtain ⟨t', hrun', -, flags', rfl⟩ := runSteps_simulates
    (R := fun u u' => u.cfg.unsetLabelPolicy = .zero ∧ SameButFlags u u')
    (fun u u' v ⟨hu, hsame⟩ hstep => by
      obtain ⟨v', hv', hsame'⟩ := step_sameButFlags hu hsame hstep
      exact ⟨v', hv', step_cfg hstep ▸ hu, hsame'⟩)
    ⟨hpolicy, flags, rfl⟩ hrun
  exact ⟨flags', hrun'⟩

/-- Settles O56: the tokenizer's state stays what it is, and every step goes as it would with another. -/
theorem tokenizerStateIsHiddenFromExecution : Obligations.TokenizerStateIsHiddenFromExecution := by
  intro n s t len first acc hphase hreset hrun
  obtain ⟨t', hrun', -, -, rfl⟩ := runSteps_simulates
    (R := fun u u' => u.phase ≠ .tokenize ∧ (∀ x ∈ u.pending, x ≠ .reset) ∧ u' = u.withToken len first acc)
    (fun u u' v ⟨hu, hno, hsame⟩ hstep => ⟨v.withToken len first acc,
      hsame ▸ step_withToken len first acc hu hno hstep, step_keeps_started hu hno hstep,
      step_keeps_no_reset hno hstep, rfl⟩)
    ⟨hphase, hreset, rfl⟩ hrun
  exact hrun'

end Sys2Proof.Machine

/-! SUPPORT and proofs for R232: under the default label modes a run that has jumped never halts. Every label is the index
of an instruction that the run has passed or stands at, so a jump leads back into code that holds no HALT and ends in a
jump. -/

namespace Sys2Proof.Machine

/-! ## The indexes that a run has explored -/

/-- At index `a` stands a supported instruction, no HALT, whose successor is in `B` unless it is a jump. -/
def Passable (s : State) (B : Set Nat) (a : Nat) : Prop :=
  ∃ i, s.prog.read a = some i.opcode ∧ s.prog.readBytes (a + 1) i.arity = some i.operands ∧
    unsupported s.cfg i.opcode = false ∧ a + i.arity < s.progLen ∧ i ≠ .halt ∧ (IsJump i ∨ a + 1 + i.arity ∈ B)

/-- The labels and pc are in `B`, and the run has passed every index of `B` but perhaps pc. -/
structure Explored (s : State) (B : Set Nat) : Prop where
  labels : ∀ j, s.label j ∈ B
  pc : s.pc ∈ B
  passed : ∀ a ∈ B, a ≠ s.pc → Passable s B a

/-- The run cannot leave `B`: the instruction at pc, too, leads nowhere else. -/
def Trapped (s : State) (B : Set Nat) : Prop :=
  Explored s B ∧ Passable s B s.pc

theorem Trapped.passable {s : State} {B : Set Nat} (h : Trapped s B) {a : Nat} (ha : a ∈ B) : Passable s B a := by
  by_cases hpc : a = s.pc
  · exact hpc ▸ h.2
  · exact h.1.passed a ha hpc

theorem trapped_iff {s : State} {B : Set Nat} :
    Trapped s B ↔ (∀ j, s.label j ∈ B) ∧ s.pc ∈ B ∧ ∀ a ∈ B, Passable s B a :=
  ⟨fun h => ⟨h.1.labels, h.1.pc, fun _ ha => h.passable ha⟩,
    fun ⟨hlabels, hpc, hpass⟩ => ⟨⟨hlabels, hpc, fun a ha _ => hpass a ha⟩, hpass _ hpc⟩⟩

/-- What stands at an index does not change, and a larger set still holds its successor. -/
theorem Passable.mono {s t : State} {B C : Set Nat} {a : Nat} (hsame : SameAround s t) (hsub : B ⊆ C)
    (h : Passable s B a) : Passable t C a := by
  obtain ⟨⟨hlen, hread⟩, -, hcfg, -⟩ := hsame
  obtain ⟨i, hop, hoperands, hsupported, hn, hhalt, hnext⟩ := h
  exact ⟨i, (hread a).trans hop, (Memory.readBytes_congr hread _ _).trans hoperands, hcfg ▸ hsupported, hlen ▸ hn, hhalt,
    hnext.imp_right (hsub ·)⟩

/-! ## One instruction -/

theorem ne_halt_of_goes_on {i : Instr} {s t : State} (h : exec i s = .next t) (ht : t.phase = .execute) : i ≠ .halt := by
  rintro rfl
  cases h
  cases ht

/-- Outside VALUE_FROM_REG a label changes only to the successor of a LABELSET, which is no jump. -/
theorem exec_label {i : Instr} {s t : State} (hmode : s.cfg.labelsetRegMode ≠ .valueFromReg) (h : exec i s = .next t)
    (j : Byte) : t.label j = s.label j ∨ ¬ IsJump i ∧ t.label j = s.pc + 1 + i.arity := by
  by_cases hj : t.label j = s.label j
  · exact .inl hj
  · obtain ⟨hi, -, -, hv⟩ := onlyLabelsetsWriteLabels i s t j h (.inl hj)
    have hpc : t.label j = s.pc + 2 := hv.resolve_right fun hvalue => hmode hvalue.1
    rcases hi with ⟨l, rfl⟩ | ⟨r, rfl⟩ <;> exact .inr ⟨by simp [IsJump], hpc⟩

/-- The labels and pc stay in a set that holds the labels and, unless the instruction is a jump, its successor. -/
theorem exec_stays_in {i : Instr} {s t : State} {B : Set Nat} (hmode : s.cfg.labelsetRegMode ≠ .valueFromReg)
    (hs : s.phase = .execute) (h : exec i s = .next t) (ht : t.phase = .execute) (hlabels : ∀ j, s.label j ∈ B)
    (hnext : IsJump i ∨ s.pc + 1 + i.arity ∈ B) : (∀ j, t.label j ∈ B) ∧ t.pc ∈ B := by
  refine ⟨fun j => ?_, ?_⟩
  · rcases exec_label hmode h j with e | ⟨hi, e⟩ <;> rw [e]
    · exact hlabels j
    · exact hnext.resolve_left hi
  · rcases exec_pc_cases hs h with ⟨hne, -⟩ | ⟨-, hi, e⟩ | ⟨-, -, j, e⟩
    · exact absurd ht hne
    · exact e ▸ hnext.resolve_left hi
    · exact e ▸ hlabels j

/-! ## Before the first jump, and after it -/

/-- A step that goes on explores at most the successor of the instruction at pc. -/
theorem Explored.step {s t : State} {B : Set Nat} (hB : Explored s B)
    (hmode : s.cfg.labelsetRegMode ≠ .valueFromReg) (hs : s.phase = .execute) (h : execStep s = .next t)
    (ht : t.phase = .execute) : ∃ C, Explored t C := by
  have hsame := execStep_sameAround h
  rcases execStep_raises_or_execs h with ⟨c, v, -, rfl⟩ | ⟨i, hop, hoperands, hsupported, hn, he⟩
  · cases ht
  have hpassable {C : Set Nat} (hnext : IsJump i ∨ s.pc + 1 + i.arity ∈ C) : Passable s C s.pc :=
    ⟨i, hop, hoperands, hsupported, hn, ne_halt_of_goes_on he ht, hnext⟩
  by_cases hi : IsJump i
  · obtain ⟨hlabels, hpc⟩ := exec_stays_in hmode hs he ht hB.labels (.inl hi)
    have htrap : Trapped s B := ⟨hB, hpassable (.inl hi)⟩
    exact ⟨B, hlabels, hpc, fun a ha _ => (htrap.passable ha).mono hsame subset_rfl⟩
  · have hsub : B ⊆ insert (s.pc + 1 + i.arity) B := Set.subset_insert _ _
    have hnext : s.pc + 1 + i.arity ∈ insert (s.pc + 1 + i.arity) B := Set.mem_insert _ _
    obtain ⟨hlabels, hpc⟩ := exec_stays_in hmode hs he ht (fun j => hsub (hB.labels j)) (.inr hnext)
    have htarget : t.pc = s.pc + 1 + i.arity := by
      rcases exec_pc_cases hs he with ⟨hne, -⟩ | ⟨-, -, e⟩ | ⟨-, hjump, -⟩
      · exact absurd ht hne
      · exact e
      · exact absurd hjump hi
    refine ⟨_, hlabels, hpc, fun a ha hne => ?_⟩
    rcases ha with rfl | ha
    · exact absurd htarget.symm hne
    · by_cases hapc : a = s.pc
      · rw [hapc]; exact (hpassable (.inr hnext)).mono hsame subset_rfl
      · exact (hB.passed a ha hapc).mono hsame hsub

/-- The causes that can still end a trapped run. -/
def TrapFault (c : Config) (cause : FaultCause) : Prop :=
  cause = .addOverflow ∧ c.addOverflow = .fault ∨ cause = .indexBoundsError ∨
    cause = .unsetLabel ∧ c.unsetLabelPolicy = .fault

/-- A trapped run stays trapped, or ends in a fault of an instruction that it has passed before. -/
theorem Trapped.step {s t : State} {B : Set Nat} (hB : Trapped s B)
    (hmode : s.cfg.labelsetRegMode ≠ .valueFromReg) (hs : s.phase = .execute) (h : execStep s = .next t) :
    t.phase = .execute ∧ Trapped t B ∨ t.phase = .faulted ∧ TrapFault s.cfg t.faultCause := by
  have hsame := execStep_sameAround h
  obtain ⟨hlabels, hpc, hpass⟩ := trapped_iff.1 hB
  obtain ⟨i, hop, hoperands, hsupported, hn, hhalt, hnext⟩ := hpass s.pc hpc
  rw [execStep_of_bytes hop hoperands hn] at h
  obtain ⟨-, -, hphase⟩ := noInstructionWritesTheProgramStore i s t h
  rcases hphase with ht | ht | ⟨-, rfl⟩
  · obtain ⟨hlabels', hpc'⟩ := exec_stays_in hmode hs h (ht.trans hs) hlabels hnext
    exact .inl ⟨ht.trans hs, trapped_iff.2 ⟨hlabels', hpc', fun a ha => (hpass a ha).mono hsame subset_rfl⟩⟩
  · obtain ⟨c, v, hown, rfl⟩ := exec_faulted (by simp [hs]) h ht
    refine .inr ⟨ht, ?_⟩
    rcases hown.cause_cases with hc | hc | hc | ⟨-, hu⟩
    · exact .inr (.inl hc)
    · exact .inl hc
    · exact .inr (.inr hc)
    · cases hu.symm.trans hsupported
  · exact absurd rfl hhalt

/-! ## Runs with no transfer of the host to come -/

/-- With no transfer to come, a step is the executor's, or nothing changes. -/
theorem step_alone {s t : State} (hpend : s.pending = []) (h : step s = .next t) :
    s.phase = .execute ∧ execStep s = .next t ∧ t.pending = [] ∨ s.phase ≠ .execute ∧ t = s := by
  have hreset : ∀ x ∈ s.pending, x ≠ .reset := by simp [hpend]
  rw [step_quiet (hostQuiet_nil hpend) (.inr hpend)] at h
  by_cases hphase : s.phase = .execute
  · exact .inl ⟨hphase, (coreStep_execute hphase).symm.trans h, (coreStep_pending hreset h).trans hpend⟩
  · cases (coreStep_waits hphase hreset).symm.trans h
    exact .inr ⟨hphase, rfl⟩

/-- From the beginning of execution, with every label 0, every state of the run in EXECUTE is explored. -/
theorem runSteps_explored {s u : State} {k : Nat} (hpc : s.pc = 0) (hlabels : ∀ j, s.label j = 0)
    (hpend : s.pending = []) (hmode : s.cfg.labelsetRegMode ≠ .valueFromReg) (hrun : runSteps k s = .next u) :
    u.cfg = s.cfg ∧ u.pending = [] ∧ (u.phase = .execute → ∃ B, Explored u B) := by
  refine runSteps_keeps
    (P := fun x => x.cfg = s.cfg ∧ x.pending = [] ∧ (x.phase = .execute → ∃ B, Explored x B))
    (fun x y ⟨hcfg, hx, hB⟩ hstep => ?_) ⟨rfl, hpend, fun _ => ⟨{0}, hlabels, hpc, fun a ha hne => ?_⟩⟩ hrun
  · rcases step_alone hx hstep with ⟨hphase, he, hy⟩ | ⟨-, rfl⟩
    · obtain ⟨B, hexplored⟩ := hB hphase
      exact ⟨(step_cfg hstep).trans hcfg, hy, hexplored.step (hcfg ▸ hmode) hphase he⟩
    · exact ⟨hcfg, hx, hB⟩
  · exact absurd (ha.trans hpc.symm) hne

/-- A trapped run goes on for ever, or ends in one of the three faults. -/
theorem runSteps_trapped {u w : State} {B : Set Nat} {m : Nat} (hB : Trapped u B) (hphase : u.phase = .execute)
    (hpend : u.pending = []) (hmode : u.cfg.labelsetRegMode ≠ .valueFromReg) (hrun : runSteps m u = .next w) :
    w.phase = .execute ∨ w.phase = .faulted ∧ TrapFault u.cfg w.faultCause := by
  obtain ⟨-, -, hend⟩ : w.cfg = u.cfg ∧ w.pending = [] ∧
      (w.phase = .execute ∧ Trapped w B ∨ w.phase = .faulted ∧ TrapFault u.cfg w.faultCause) := by
    refine runSteps_keeps
      (P := fun x => x.cfg = u.cfg ∧ x.pending = [] ∧
        (x.phase = .execute ∧ Trapped x B ∨ x.phase = .faulted ∧ TrapFault u.cfg x.faultCause))
      (fun x y ⟨hcfg, hx, hcase⟩ hstep => ?_) ⟨rfl, hpend, .inl ⟨hphase, hB⟩⟩ hrun
    rcases step_alone hx hstep with ⟨hexecute, he, hy⟩ | ⟨hne, rfl⟩
    · obtain ⟨-, htrap⟩ := hcase.resolve_right fun hf => absurd (hexecute.symm.trans hf.1) nofun
      exact ⟨(step_cfg hstep).trans hcfg, hy, hcfg ▸ htrap.step (hcfg ▸ hmode) hexecute he⟩
    · exact ⟨hcfg, hx, hcase⟩
  exact hend.imp_left And.left

/-! ## The obligation -/

theorem IsJump.supported {i : Instr} (h : IsJump i) (c : Config) : unsupported c i.opcode = false := by
  rw [Bool.eq_false_iff, ne_eq, unsupported_iff]
  rcases h with ⟨r, rfl⟩ | ⟨j, rfl⟩ <;> simp [Instr.opcode]

theorem IsJump.ne_halt {i : Instr} (h : IsJump i) : i ≠ .halt := by
  rcases h with ⟨r, rfl⟩ | ⟨j, rfl⟩ <;> nofun

/-- Settles O57: the run up to the jump has explored every index that a label holds, so at the jump it is trapped. -/
theorem aRunThatHasJumpedNeverHalts : Obligations.ARunThatHasJumpedNeverHalts := by
  intro s u v w i k n m bytes _ _ hpc hlabels hpend hmode hrun hu hbytes hdecode hn hjump hv _ hw
  obtain ⟨hcfg, hupend, hexplored⟩ := runSteps_explored hpc hlabels hpend hmode hrun
  obtain ⟨B, hB⟩ := hexplored hu
  rw [eq_encode_append_of_decode hdecode, List.append_nil] at hbytes
  obtain ⟨rfl, hop, hoperands⟩ := Memory.read_of_readBytes_encode hbytes
  have hi : IsJump i := hjump
  have htrap : Trapped u B := ⟨hB, i, hop, hoperands, hi.supported u.cfg, by omega, hi.ne_halt, .inl hi⟩
  have hrun' : runSteps (m + 1) u = .next w := (runSteps_succ_of_next hv m).trans hw
  exact hcfg ▸ runSteps_trapped htrap hu hupend (hcfg ▸ hmode) hrun'

end Sys2Proof.Machine
